-- ==== Sys2Proof/Word.lean ====
section
/-! DEFINITION. The element types of EDC-CORE: the 8-bit symbol and byte, the bit, and a run of zero bits. -/

namespace Sys2Proof

/-- An 8-bit field of the interface: the command byte and the status byte (30_encoding R56, R63). -/
abbrev Byte := BitVec 8

/-- A symbol code: one 8-bit character of an operand (30_encoding R61). -/
abbrev Sym := BitVec 8

/-- A bit, a value in {0, 1} with XOR as addition in GF(2) (00_scope R10): `false` is 0 and `true` is 1. -/
abbrev Bit := Bool

/-- `zeros(k)`: the sequence of `k` zero bits (00_scope R9). -/
def zeros (k : Nat) : List Bit := List.replicate k false

end Sys2Proof
end

