-- ==== Sys2Proof/Config.lean ====
section
/-! DEFINITION. The OPEN parameters of the platform (00_scope R7). Each is its least value plus an opaque amount, so
every natural number that the spec admits is covered and no proof can see which one holds (log 1). -/

namespace Sys2Proof

/-- By how much MAX_DATA_LEN exceeds its least value 4. Open: no value can be proved of it. -/
opaque Config.dataSlack : Nat

/-- By how much MAX_GEN_LEN exceeds its least value 2. Open: no value can be proved of it. -/
opaque Config.genSlack : Nat

/-- By how much NUM_INSTANCES exceeds its least value 1. Open: no value can be proved of it. -/
opaque Config.extraInstances : Nat

/-- MAX_DATA_LEN, the most symbols DATA may hold, at least 4 (00_scope R7). -/
def Config.maxDataLen : Nat := Config.dataSlack + 4

/-- MAX_GEN_LEN, the most symbols GEN may hold, at least 2 (00_scope R7). -/
def Config.maxGenLen : Nat := Config.genSlack + 2

/-- NUM_INSTANCES, the number of instances on the platform, at least 1 (00_scope R7). -/
def Config.numInstances : Nat := Config.extraInstances + 1

end Sys2Proof
end

