-- ==== Sys2Proof/Syntax.lean ====
section
/-! DEFINITION. Requests, instructions, statuses and responses as data (30_encoding). -/

namespace Sys2Proof

/-- A request: the record of command byte, DATA and GEN, in this order (30_encoding R55). -/
structure Request where
  op : Byte
  data : List Sym
  gen : List Sym
  deriving DecidableEq, Repr

/-- The five operations, one constructor per row of the opcode table (00_scope R2, 30_encoding R57).
Every row has the one format REQ(op, data, gen), so each carries GEN, also where it ignores it (R60). -/
inductive Instr where
  | crc (data gen : List Sym)
  | csum (data gen : List Sym)
  | par (data gen : List Sym)
  | ham74 (data gen : List Sym)
  | luhn (data gen : List Sym)
  deriving DecidableEq, Repr

/-- The DATA operand. -/
def Instr.data : Instr → List Sym
  | .crc d _ | .csum d _ | .par d _ | .ham74 d _ | .luhn d _ => d

/-- The GEN operand. -/
def Instr.gen : Instr → List Sym
  | .crc _ g | .csum _ g | .par _ g | .ham74 _ g | .luhn _ g => g

/-- Why a command byte names no operation. -/
inductive IllegalOp where
  /-- `op[7:3]` is not `00000` (30_encoding R58). -/
  | reservedBits
  /-- `op[7:3] = 00000` and `op[2:0]` is 5, 6 or 7 (30_encoding R59). -/
  | reservedCode
  deriving DecidableEq, Repr

/-- What a request decodes to: an operation, or a rejection by name. -/
inductive Decoded where
  | instr (i : Instr)
  | illegal (why : IllegalOp)
  deriving DecidableEq, Repr

/-- The named statuses (30_encoding R64). Their bytes are in Machine/Flags.lean. -/
inductive Status where
  | ok
  | invalidGenerator
  | invalidLength
  | invalidInput
  | illegalOp
  deriving DecidableEq, Repr

/-- A response: the status byte and the result bits, first bit first (30_encoding R63, R65). -/
structure Response where
  status : Byte
  result : List Bit
  deriving DecidableEq, Repr

end Sys2Proof
end

