-- ==== Sys2Proof/WellFormed.lean ====
section
/-! DEFINITION. The length bounds a request keeps to be admitted (10_state R29), on requests and on instructions. -/

namespace Sys2Proof

/-- DATA is within MAX_DATA_LEN (00_scope R7). -/
def dataFits (data : List Sym) : Bool := decide (data.length ≤ Config.maxDataLen)

/-- GEN is within MAX_GEN_LEN (00_scope R7). -/
def genFits (gen : List Sym) : Bool := decide (gen.length ≤ Config.maxGenLen)

/-- A request is admitted when both operands are within their bounds; neither the command byte nor the symbols are
looked at (10_state R29). -/
def Request.admitted (r : Request) : Bool := dataFits r.data && genFits r.gen

/-- An instruction is well formed when the request it stands for is admitted. -/
def Instr.wellFormed (i : Instr) : Bool := dataFits i.data && genFits i.gen

end Sys2Proof
end

