-- ==== Sys2Proof/Machine/State.lean ====
section
/-! DEFINITION. The state of the platform: its instances, each with PHASE, REQ, RSP and working state (10_state R16,
R25), and the model's own fields that say what happens next and what the hosts saw (log 4, 5, 6). The block has no
memory, registers or program counter (10_state R20, 20_memory R40; log 7). -/

namespace Sys2Proof.Machine

/-- PHASE (10_state R16, R21). Its bit encoding is not architectural, so it is a set of names. -/
inductive Phase where
  | idle
  | busy
  | done
  deriving DecidableEq, Repr

/-- The working state of the unit at work (10_state R25). `empty` is "holds no value". -/
inductive Work where
  | empty
  /-- The dividend buffer `B` and the scan position `i` (40_crc R91). -/
  | crc (buf : List Bit) (i : Nat)
  /-- The 8-bit accumulator `ACC` and the index `k` of the next group (41_checksum R102). -/
  | csum (acc : Byte) (k : Nat)
  /-- The 1-bit register `P` and the index `i` of the next symbol (42_parity R108). -/
  | par (p : Bit) (i : Nat)
  /-- The sum `S` and the position `j` from the right of the next digit, from 1 (44_luhn R124). -/
  | luhn (sum : Nat) (j : Nat)
  deriving DecidableEq, Repr

/-- One instance of EDC-CORE (10_state R16). `none` in `req` or `rsp` is the spec's own "holds no value" (R22, R23,
R33), not a missing reset value (log 3). -/
structure Inst where
  phase : Phase
  req : Option Request
  rsp : Option Response
  work : Work
  deriving DecidableEq, Repr

/-- What can happen to an instance: the host's ISSUE, READ, READ of RSP and ACK (10_state R28, R31, R32, R24), one
internal step of the unit at work (R25), the block's COMPLETE (R30), and the platform's reset (70_reset R155). -/
inductive Action where
  | issue (r : Request)
  | read
  | readRsp
  | ack
  | work
  | complete
  | reset
  deriving DecidableEq, Repr

/-- An action on the instance with number `inst`. It names no host: the block cannot tell hosts apart (60 R150). -/
structure Event where
  inst : Nat
  act : Action
  deriving DecidableEq, Repr

/-- What an action from outside did or got back: a request issued, a phase read, a response read in DONE, a response
acknowledged, a reset applied (10_state R28 to R32, 70_reset R164). -/
inductive Answer where
  | issued (r : Request)
  | phase (p : Phase)
  | response (rsp : Response)
  | acked
  | reset
  deriving DecidableEq, Repr

/-- An answer at the instance with number `inst`. -/
structure Seen where
  inst : Nat
  ans : Answer
  deriving DecidableEq, Repr

/-- The whole platform. `insts` is the spec's state; `sel`, `script` and `seen` are the model's own. -/
structure State where
  /-- The instances (00_scope R7, 10_state R27). -/
  insts : List Inst
  /-- The instance that the current action is on (log 5). -/
  sel : Nat
  /-- What is still to happen, oldest first: unconstrained data, so any interleaving and any latency (log 4). -/
  script : List Event
  /-- What was done and read from outside, oldest first (log 6). -/
  seen : List Seen
  deriving DecidableEq, Repr

/-- Why a run stops. Each stop is safe: the model stops where a real block might go on, so nothing can be proved of
what follows (92 D27, D28). That a stop at one instance stops the runs at the others too is the model's choice (DESIGN
CHOICE, log 12). -/
inductive Fault where
  /-- A read of RSP outside DONE, by READ of RSP (10_state R24). Raised by `Inst.readRsp`. Safe. -/
  | readUnwrittenRsp
  /-- COMPLETE or a working step in BUSY with no request latched; no run reaches such a state (10_state R24: "The
  same holds for REQ"). Raised by `Inst.fetch` and `workOne`. Safe. -/
  | readUnwrittenReq
  /-- ISSUE outside IDLE: no move, stuck (10_state R29, 93 U9). Raised by `Inst.doIssue`. Safe. -/
  | issueNotIdle
  /-- ACK outside DONE: no move, stuck (10_state R31, 93 U9). Raised by `Inst.doAck`. Safe. -/
  | ackNotDone
  /-- COMPLETE where it is not enabled, outside BUSY (10_state R30). Raised by `answerWith` and `Inst.fetch`. Safe. -/
  | completeNotBusy
  /-- A working step where none exists, outside BUSY (10_state R25). Raised by `workOne`. Safe. -/
  | workNotBusy
  /-- An action on an instance the platform does not have (00_scope R7). Raised by `withSel` and `fetch`. Safe. -/
  | noSuchInstance
  deriving DecidableEq, Repr

/-- What the model gives no meaning to. -/
inductive Refusal where
  /-- An operation of the table without a meaning in this model. Raised by no arm of `exec`: all five have one. Safe. -/
  | notModelled (mnemonic : String)
  /-- ISSUE of a request longer than the bounds: refused at ISSUE, no move (10_state R29, 93 U5). Raised by
  `Inst.doIssue`. Safe. -/
  | requestNotAdmitted
  deriving DecidableEq, Repr

/-- An instance after reset: PHASE is IDLE; REQ, RSP and all working state hold no value (10_state R33). -/
def Inst.reset : Inst := ⟨.idle, none, none, .empty⟩

/-- The platform right after reset: NUM_INSTANCES instances, all in the reset state (10_state R33, 60 R150), nothing
waiting to happen and nothing seen. -/
def State.reset : State where
  insts := Inst.reset :: List.replicate Config.extraInstances Inst.reset
  sel := 0
  script := []
  seen := []

end Sys2Proof.Machine
end

