-- ==== Sys2Proof/Machine/Operands.lean ====
section
/-! DEFINITION. How operands are read and results written: symbol classes and values (30_encoding R62), the validation
of whole operands (60 R139), the value of a bit sequence and the 8-bit form of a value (41_checksum R100, R101), and
the rendering of a result as symbols (30_encoding R65). -/

namespace Sys2Proof.Machine

/-- `isBit(c)` (30_encoding R62). -/
def isBit (c : Sym) : Bool := c == 0x30#8 || c == 0x31#8

/-- `isDigit(c)` (30_encoding R62). -/
def isDigit (c : Sym) : Bool := decide (0x30#8 ≤ c) && decide (c ≤ 0x39#8)

/-- `bitOf(c) = c - 0x30`, used only on symbols that `isBit` has passed (00_scope R12, 30_encoding R62). -/
def bitOf (c : Sym) : Bit := c - 0x30#8 == 1#8

/-- `digitOf(c) = c - 0x30`, used only on symbols that `isDigit` has passed (00_scope R12, 30_encoding R62). -/
def digitOf (c : Sym) : Nat := (c - 0x30#8).toNat

/-- A well-formed bit string; the empty sequence is one (30_encoding R62). -/
def isBitString (s : List Sym) : Bool := s.all isBit

/-- A well-formed digit string; the empty sequence is one (30_encoding R62). -/
def isDigitString (s : List Sym) : Bool := s.all isDigit

/-- The bits of a bit string, first symbol first (20_memory R42). -/
def bitsOf (s : List Sym) : List Bit := s.map bitOf

/-- The symbol of a bit: `0x30` for 0 and `0x31` for 1 (30_encoding R65). -/
def symOfBit (b : Bit) : Sym := if b then 0x31#8 else 0x30#8

/-- `render`: a bit sequence as the string of its symbols (30_encoding R65, 40_crc R88). -/
def render (bs : List Bit) : List Sym := bs.map symOfBit

/-- `val(s)`: the unsigned value of a bit sequence, first bit most significant (41_checksum R100). -/
def val : List Bit → Nat
  | [] => 0
  | b :: bs => b.toNat * 2 ^ bs.length + val bs

/-- `bits8(v)`: eight bits, most significant first (41_checksum R101). -/
def bits8 (v : Nat) : List Bit := (List.range 8).map fun i => v / 2 ^ (7 - i) % 2 == 1

end Sys2Proof.Machine
end

