-- ==== Sys2Proof/Decode.lean ====
section
/-! DEFINITION. The decoder of the command byte, total on any request and rejecting by name, and the encoder written
from the same table (30_encoding R55 to R59, R69). The spec fixes no wire format of the record (R55), so both work on
the record itself. -/

namespace Sys2Proof

/-- `op[2:0]`, the operation code (30_encoding R56). -/
def opcField (op : Byte) : BitVec 3 := op.extractLsb' 0 3

/-- `op[7:3]`, the reserved field (30_encoding R56). -/
def rsvField (op : Byte) : BitVec 5 := op.extractLsb' 3 5

/-- The decoder: reserved bits first (30_encoding R58), then the operation code (R57, R59). -/
def decode (r : Request) : Decoded :=
  if rsvField r.op = 0#5 then
    match (opcField r.op).toNat with
    | 0 => .instr (.crc r.data r.gen)
    | 1 => .instr (.csum r.data r.gen)
    | 2 => .instr (.par r.data r.gen)
    | 3 => .instr (.ham74 r.data r.gen)
    | 4 => .instr (.luhn r.data r.gen)
    | _ => .illegal .reservedCode
  else .illegal .reservedBits

/-- The command byte of an instruction (30_encoding R57). -/
def opByte : Instr → Byte
  | .crc _ _ => 0x00#8
  | .csum _ _ => 0x01#8
  | .par _ _ => 0x02#8
  | .ham74 _ _ => 0x03#8
  | .luhn _ _ => 0x04#8

/-- The encoder: the request record of an instruction (30_encoding R55). -/
def encode (i : Instr) : Request := ⟨opByte i, i.data, i.gen⟩

/-- The request that an opcode-table word gives: its low 8 bits are the command byte, the only bits the table numbers;
the operands, which the table gives no bits, are empty. -/
def tableRequest (nbits w : Nat) : Request := ⟨BitVec.ofNat 8 (w % 2 ^ nbits), [], []⟩

/-- The instruction this decoder reads from an opcode-table word. -/
def decodeTableWord (nbits w : Nat) : Option Instr :=
  match decode (tableRequest nbits w) with
  | .instr i => some i
  | .illegal _ => none

end Sys2Proof
end

