-- ==== Sys2Proof/Machine/Flags.lean ====
section
/-! DEFINITION. The block has no flags or condition codes (10_state R18). The one status it reports is the status byte
of the response (10_state R19, 30_encoding R63, R64): its codes and its two fields. -/

namespace Sys2Proof.Machine

/-- The status byte of a named status (30_encoding R64). -/
def statusByte : Status → Byte
  | .ok => 0x00#8
  | .invalidGenerator => 0x01#8
  | .invalidLength => 0x02#8
  | .invalidInput => 0x03#8
  | .illegalOp => 0x04#8

/-- `status[2:0]`, the field CODE (30_encoding R63). -/
def statusCode (b : Byte) : BitVec 3 := b.extractLsb' 0 3

/-- `status[7:3]`, always `00000` (30_encoding R63). -/
def statusReserved (b : Byte) : BitVec 5 := b.extractLsb' 3 5

end Sys2Proof.Machine
end

