-- ==== Sys2Proof/Machine/Ops.lean ====
section
/-! DEFINITION. The named operations on an instance and on the platform: the host's actions, reset, answering a request,
raising a status, fetching the latched request, and choosing what happens next (10_state R21 to R33, 60 R140 to R146,
70_reset R155). -/

namespace Sys2Proof.Machine

/-! ### Responses -/

/-- `return r`: status OK with the result `r` (00_scope R12, 60 R133). -/
def okWith (bits : List Bit) : Response := ⟨statusByte .ok, bits⟩

/-- `raise <Status>()`, the one way every operation reports an error: that status and an empty result. The block takes
no trap: nothing is saved, no mode changes and control goes nowhere (00_scope R12, 60 R132, R140, R144). The host's ACK
ends the reporting (60 R145): `Inst.doAck`. -/
def raise (st : Status) : Response := ⟨statusByte st, []⟩

/-! ### Actions on one instance -/

/-- Applies `f` to what an action gives when it has a move. -/
def mapNext {α β : Type} (f : α → β) : Host.Outcome α Fault Refusal → Host.Outcome β Fault Refusal
  | .next a => .next (f a)
  | .fault r => .fault r
  | .refused r => .refused r

/-- ISSUE: enabled in IDLE for an admitted request; REQ <- r, PHASE <- BUSY (10_state R28, R29). Elsewhere it has no
move; the phase is looked at first (log 9). -/
def Inst.doIssue (r : Request) (c : Inst) : Host.Outcome Inst Fault Refusal :=
  if c.phase = .idle then
    if r.admitted then .next { c with phase := .busy, req := some r } else .refused .requestNotAdmitted
  else .fault .issueNotIdle

/-- READ of RSP: the response in DONE, a fault in any other phase (10_state R24, R32). -/
def Inst.readRsp (c : Inst) : Host.Outcome Answer Fault Refusal :=
  match c.phase, c.rsp with
  | .done, some x => .next (.response x)
  | _, _ => .fault .readUnwrittenRsp

/-- READ: the phase in any phase, with the response in DONE (10_state R32). -/
def Inst.read (c : Inst) : Host.Outcome Answer Fault Refusal :=
  if c.phase = .done then c.readRsp else .next (.phase c.phase)

/-- ACK: enabled in DONE; PHASE <- IDLE, after which REQ and RSP hold no value (10_state R31). -/
def Inst.doAck (c : Inst) : Host.Outcome Inst Fault Refusal :=
  if c.phase = .done then .next { c with phase := .idle, req := none, rsp := none } else .fault .ackNotDone

/-- The effect of COMPLETE: RSP <- the response, PHASE <- DONE; the unit's working state is given up, since none
survives the request (10_state R30, R17, R25). -/
def Inst.answer (x : Response) (c : Inst) : Inst := { c with phase := .done, rsp := some x, work := .empty }

/-! ### Actions on the platform -/

/-- Puts `c` in place of the selected instance. -/
def State.setSel (c : Inst) (s : State) : State := { s with insts := s.insts.set s.sel c }

/-- Appends what the outside did or saw at the selected instance. -/
def State.saw (a : Answer) (s : State) : State := { s with seen := s.seen ++ [⟨s.sel, a⟩] }

/-- The selected instance, if the platform has it. -/
def State.selected (s : State) : Option Inst := s.insts[s.sel]?

/-- Goes on with the selected instance; an instance the platform does not have is a fault. A stop at one instance, by a
fault or for want of a move, stops the whole platform: the spec speaks of the run on that instance only, and that no
other instance goes on is the model's choice (DESIGN CHOICE, log 12). -/
def withSel {α : Type} (s : State) (f : Inst → Host.Outcome α Fault Refusal) : Host.Outcome α Fault Refusal :=
  match s.selected with
  | some c => f c
  | none => .fault .noSuchInstance

/-- ISSUE at the selected instance (10_state R28). -/
def issueSel (r : Request) (s : State) : Host.Outcome State Fault Refusal :=
  withSel s fun c => mapNext (fun c' => (s.setSel c').saw (.issued r)) (c.doIssue r)

/-- READ at the selected instance: it changes no state of the block (10_state R32, 20_memory R46). -/
def readSel (s : State) : Host.Outcome State Fault Refusal := withSel s fun c => mapNext s.saw c.read

/-- READ of RSP at the selected instance (10_state R24, R32). Its fault stops the platform's run, not the reading run
alone: the model's choice (DESIGN CHOICE, log 12). -/
def readRspSel (s : State) : Host.Outcome State Fault Refusal := withSel s fun c => mapNext s.saw c.readRsp

/-- ACK at the selected instance (10_state R31). -/
def ackSel (s : State) : Host.Outcome State Fault Refusal :=
  withSel s fun c => mapNext (fun c' => (s.setSel c').saw .acked) c.doAck

/-- Reset of the selected instance, in any phase: request, response and working state are discarded
(70_reset R155 to R157). -/
def resetSel (s : State) : Host.Outcome State Fault Refusal :=
  withSel s fun _ => .next ((s.setSel Inst.reset).saw .reset)

/-- COMPLETE with the response `x`: the one operation through which every instruction takes effect. It is enabled only
in BUSY (10_state R30). -/
def answerWith (x : Response) (s : State) : Host.Outcome State Fault Refusal :=
  withSel s fun c => if c.phase = .busy then .next (s.setSel (c.answer x)) else .fault .completeNotBusy

/-! ### Fetching the latched request and choosing what happens next -/

/-- What COMPLETE finds latched. -/
inductive Fetched where
  | run (i : Instr)
  | illegal (why : IllegalOp)
  | stop (f : Fault)
  deriving DecidableEq, Repr

/-- Takes the request latched in an instance and decodes its command byte: what stands in the place of an instruction
fetch, which the block does not have (10_state R20, 20_memory R51). -/
def Inst.fetch (c : Inst) : Fetched :=
  if c.phase = .busy then
    match c.req with
    | none => .stop .readUnwrittenReq
    | some r =>
      match decode r with
      | .instr i => .run i
      | .illegal why => .illegal why
  else .stop .completeNotBusy

/-- `fetch` at the selected instance. -/
def fetch (s : State) : Fetched :=
  match s.selected with
  | some c => c.fetch
  | none => .stop .noSuchInstance

/-- COMPLETE of a request whose command byte names no operation: status ILLEGAL_OP, whichever of the two rules the byte
breaks, and no operand is read (30_encoding R58, R59, 60 R137, R141). -/
def answerIllegal (_why : IllegalOp) (s : State) : Host.Outcome State Fault Refusal := answerWith (raise .illegalOp) s

/-- The first BUSY instance. -/
def State.firstBusy (s : State) : Option Nat := s.insts.findIdx? fun c => c.phase == .busy

/-- What happens next, with the state it happens in: the oldest event of the script; with none left, COMPLETE of the
first BUSY instance, since COMPLETE, continuously enabled, is eventually taken (70_reset R162); else nothing. -/
def State.nextEvent (s : State) : Option (Action × State) :=
  match s.script with
  | e :: rest => some (e.act, { s with script := rest, sel := e.inst })
  | [] => s.firstBusy.map fun k => (.complete, { s with sel := k })

/-- `s` with the request `r` latched in instance 0, in BUSY as ISSUE leaves it, and its COMPLETE the next event. -/
def State.placeRequest (r : Request) (s : State) : State :=
  { s with
    insts := ⟨.busy, some r, none, .empty⟩ :: s.insts.tail
    script := ⟨0, .complete⟩ :: s.script }

end Sys2Proof.Machine
end

