-- ==== Sys2Proof/Machine/Checksum.lean ====
section
/-! DEFINITION. `CSUM`, the additive checksum accumulator (41_checksum). -/

namespace Sys2Proof.Machine

/-- The number of groups, `ceil(n / 8)` (41_checksum R95). -/
def groupCount (n : Nat) : Nat := (n + 7) / 8

/-- Group `k`, `D[8k : min(8k+8, n)]`: 8 bits, or fewer for the last (41_checksum R97, R98). -/
def group (D : List Bit) (k : Nat) : List Bit := (D.drop (8 * k)).take 8

/-- `T`, the sum of the group values, an unbounded natural (41_checksum R95). -/
def groupSum (D : List Bit) : Nat := ((List.range (groupCount D.length)).map fun k => val (group D k)).sum

/-- `CSUM(REQ)`: the data check, then `bits8(T mod 256)`; GEN is ignored (41_checksum R95, R96, R99). -/
def csumResponse (data _gen : List Sym) : Response :=
  if !isBitString data then raise .invalidInput
  else okWith (bits8 (groupSum (bitsOf data) % 256))

/-- One working step of the accumulator: `ACC <- 0`, then one group at a time (41_checksum R102). -/
def csumWork (data : List Sym) (w : Work) : Work :=
  if isBitString data then
    match w with
    | .empty => .csum 0#8 0
    | .csum acc k =>
      if k < groupCount data.length then .csum (acc + BitVec.ofNat 8 (val (group (bitsOf data) k))) (k + 1) else w
    | _ => w
  else w

/-- The result `bits8(ACC)` once every group is added (41_checksum R102). -/
def csumWorkResult (data : List Sym) : Work → Option (List Bit)
  | .csum acc k => if k = groupCount data.length then some (bits8 acc.toNat) else none
  | _ => none

/-- `CSUM` (41_checksum R95): COMPLETE with its response. -/
def execCsum (data gen : List Sym) (s : State) : Host.Outcome State Fault Refusal := answerWith (csumResponse data gen) s

end Sys2Proof.Machine
end

