-- ==== Sys2Proof/Machine/Crc.lean ====
section
/-! DEFINITION. `CRC`, the CRC polynomial divider (40_crc). -/

namespace Sys2Proof.Machine

/-- XOR of a window into the front of a buffer; what lies behind the window stays. -/
def xorInto : List Bit → List Bit → List Bit
  | b :: bs, w :: ws => (b ^^ w) :: xorInto bs ws
  | bs, [] => bs
  | [], _ :: _ => []

/-- The buffer with the window `B[i : i+g]` replaced by its XOR with `G` (40_crc R84). -/
def xorWindow (B : List Bit) (i : Nat) (G : List Bit) : List Bit := B.take i ++ xorInto (B.drop i) G

/-- One position of the scan: XOR where `B[i] = 1`, nothing where it is 0 (40_crc R84). -/
def divStep (G B : List Bit) (i : Nat) : List Bit := if B[i]?.getD false then xorWindow B i G else B

/-- The scan of positions 0 to n-1 in increasing order (40_crc R84). -/
def divide (G B : List Bit) (n : Nat) : List Bit := (List.range n).foldl (divStep G) B

/-- The dividend: the data with `g - 1` zero bits appended (40_crc R83). -/
def dividend (D G : List Bit) : List Bit := D ++ zeros (G.length - 1)

/-- The result: the last `g - 1` bits `B[n : n+g-1]` of the reduced buffer (40_crc R86). -/
def remainderOf (D G B : List Bit) : List Bit := (B.drop D.length).take (G.length - 1)

/-- The CRC remainder of `D` by `G` (40_crc R80). -/
def crcRemainder (D G : List Bit) : List Bit := remainderOf D G (divide G (dividend D G) D.length)

/-- The generator is valid: a bit string of length at least 2 (40_crc R81). -/
def validGenerator (gen : List Sym) : Bool := decide (2 ≤ gen.length) && isBitString gen

/-- `CRC(REQ)`: the generator check, then the data check, then the division (40_crc R80). -/
def crcResponse (data gen : List Sym) : Response :=
  if !validGenerator gen then raise .invalidGenerator
  else if !isBitString data then raise .invalidInput
  else okWith (crcRemainder (bitsOf data) (bitsOf gen))

/-- One working step of the divider: start after the checks have passed, then one scan position while `i < n`
(40_crc R91). -/
def crcWork (data gen : List Sym) (w : Work) : Work :=
  if validGenerator gen && isBitString data then
    match w with
    | .empty => .crc (dividend (bitsOf data) (bitsOf gen)) 0
    | .crc B i => if i < data.length then .crc (divStep (bitsOf gen) B i) (i + 1) else w
    | _ => w
  else w

/-- The result the divider's working state holds once finished, `i = n` (40_crc R91). -/
def crcWorkResult (data gen : List Sym) : Work → Option (List Bit)
  | .crc B i => if i = data.length then some (remainderOf (bitsOf data) (bitsOf gen) B) else none
  | _ => none

/-- `CRC` (40_crc R80): COMPLETE with its response. -/
def execCrc (data gen : List Sym) (s : State) : Host.Outcome State Fault Refusal := answerWith (crcResponse data gen) s

end Sys2Proof.Machine
end

