-- ==== Sys2Proof/Machine/Hamming.lean ====
section
/-! DEFINITION. `HAM74`, the (7,4) Hamming encoder (43_hamming). It is combinational: it has no working state (R116). -/

namespace Sys2Proof.Machine

/-- The codeword `[p1, p2, d0, p3, d1, d2, d3]` of four data bits (43_hamming R116, R117). -/
def hammingWord (d0 d1 d2 d3 : Bit) : List Bit :=
  let p1 := d0 ^^ d1 ^^ d3
  let p2 := d0 ^^ d2 ^^ d3
  let p3 := d1 ^^ d2 ^^ d3
  [p1, p2, d0, p3, d1, d2, d3]

/-- `HAM74(REQ)`: the length gate, then the alphabet, then the codeword; GEN is ignored (43_hamming R112 to R115). -/
def ham74Response (data _gen : List Sym) : Response :=
  match data with
  | [c0, c1, c2, c3] =>
    if !isBitString [c0, c1, c2, c3] then raise .invalidInput
    else okWith (hammingWord (bitOf c0) (bitOf c1) (bitOf c2) (bitOf c3))
  | _ => raise .invalidLength

/-- `HAM74` (43_hamming R112): COMPLETE with its response. -/
def execHam74 (data gen : List Sym) (s : State) : Host.Outcome State Fault Refusal :=
  answerWith (ham74Response data gen) s

end Sys2Proof.Machine
end

