-- ==== Sys2Proof/Machine/Luhn.lean ====
section
/-! DEFINITION. `LUHN`, the Luhn digit validator (44_luhn). -/

namespace Sys2Proof.Machine

/-- What the digit `x` at position `j` from the right adds: at an even position it is doubled, and 9 is taken off a
double above 9 (44_luhn R124, R125). -/
def luhnTerm (j x : Nat) : Nat := if j % 2 = 0 then (if 2 * x > 9 then 2 * x - 9 else 2 * x) else x

/-- The digit at position `j` from the right, `data[n - j]` (44_luhn R124). -/
def digitFromRight (data : List Sym) (j : Nat) : Nat := (data[data.length - j]?.map digitOf).getD 0

/-- `S`, summed over the positions 1 to n from the right, an unbounded natural (44_luhn R122). -/
def luhnSum (data : List Sym) : Nat :=
  ((List.range data.length).map fun m => luhnTerm (m + 1) (digitFromRight data (m + 1))).sum

/-- `LUHN(REQ)`: the digit check, then `[1]` (Valid) when `S mod 10 = 0`, else `[0]` (Invalid); GEN is ignored
(44_luhn R122, R126, R127). -/
def luhnResponse (data _gen : List Sym) : Response :=
  if !isDigitString data then raise .invalidInput else okWith [luhnSum data % 10 == 0]

/-- One working step of the validator: `S <- 0` at the rightmost digit, then one digit at a time (44_luhn R124). -/
def luhnWork (data : List Sym) (w : Work) : Work :=
  if isDigitString data then
    match w with
    | .empty => .luhn 0 1
    | .luhn sum j => if j ≤ data.length then .luhn (sum + luhnTerm j (digitFromRight data j)) (j + 1) else w
    | _ => w
  else w

/-- The classification once every digit is added (44_luhn R126). -/
def luhnWorkResult (data : List Sym) : Work → Option (List Bit)
  | .luhn sum j => if j = data.length + 1 then some [sum % 10 == 0] else none
  | _ => none

/-- `LUHN` (44_luhn R122): COMPLETE with its response. -/
def execLuhn (data gen : List Sym) (s : State) : Host.Outcome State Fault Refusal := answerWith (luhnResponse data gen) s

end Sys2Proof.Machine
end

