-- ==== Sys2Proof/Machine/Parity.lean ====
section
/-! DEFINITION. `PAR`, the parity generator (42_parity). -/

namespace Sys2Proof.Machine

/-- The even-parity bit: the number of 1 bits modulo 2 (42_parity R105, R107). -/
def parityBit (D : List Bit) : Bit := D.count true % 2 == 1

/-- `PAR(REQ)`: the data check, then one bit; GEN is ignored (42_parity R105, R106). -/
def parResponse (data _gen : List Sym) : Response :=
  if !isBitString data then raise .invalidInput else okWith [parityBit (bitsOf data)]

/-- One working step of the generator: `P <- 0`, then one symbol at a time (42_parity R108). -/
def parWork (data : List Sym) (w : Work) : Work :=
  if isBitString data then
    match w with
    | .empty => .par false 0
    | .par p i =>
      match data[i]? with
      | some c => .par (p ^^ bitOf c) (i + 1)
      | none => w
    | _ => w
  else w

/-- The result `[P]` once every symbol is taken (42_parity R108). -/
def parWorkResult (data : List Sym) : Work → Option (List Bit)
  | .par p i => if i = data.length then some [p] else none
  | _ => none

/-- `PAR` (42_parity R105): COMPLETE with its response. -/
def execPar (data gen : List Sym) (s : State) : Host.Outcome State Fault Refusal := answerWith (parResponse data gen) s

end Sys2Proof.Machine
end

