-- ==== Sys2Proof/Machine/Respond.lean ====
section
/-! DEFINITION. The block seen whole: `CORE(REQ)` (60 R141), and the working steps of the unit that a request selects
(10_state R25, R26). -/

namespace Sys2Proof.Machine

/-- The response of an operation. -/
def respond : Instr → Response
  | .crc data gen => crcResponse data gen
  | .csum data gen => csumResponse data gen
  | .par data gen => parResponse data gen
  | .ham74 data gen => ham74Response data gen
  | .luhn data gen => luhnResponse data gen

/-- `CORE(REQ)`: ILLEGAL_OP first, then the operation that the command byte selects (60 R141). -/
def coreResponse (r : Request) : Response :=
  match decode r with
  | .instr i => respond i
  | .illegal _ => raise .illegalOp

/-- One working step of the unit of an operation (10_state R25); the Hamming encoder has none (43_hamming R116). -/
def unitStep : Instr → Work → Work
  | .crc data gen, w => crcWork data gen w
  | .csum data _, w => csumWork data w
  | .par data _, w => parWork data w
  | .ham74 _ _, w => w
  | .luhn data _, w => luhnWork data w

/-- The result that the unit's working state holds once the unit is finished, if it is. -/
def unitResult : Instr → Work → Option (List Bit)
  | .crc data gen, w => crcWorkResult data gen w
  | .csum data _, w => csumWorkResult data w
  | .par data _, w => parWorkResult data w
  | .ham74 _ _, _ => none
  | .luhn data _, w => luhnWorkResult data w

/-- One working step for a latched request; no unit works on an illegal command byte. -/
def workStep (r : Request) (w : Work) : Work :=
  match decode r with
  | .instr i => unitStep i w
  | .illegal _ => w

/-- The working state after `m` working steps from none. -/
def workAfter (r : Request) : Nat → Work
  | 0 => .empty
  | m + 1 => workStep r (workAfter r m)

/-- One internal step of the unit at work, in BUSY only; nothing the host can read changes (10_state R25, R26).
Where the unit has no step to take it changes nothing at all (DESIGN CHOICE, log 2, log 11). -/
def workOne (s : State) : Host.Outcome State Fault Refusal :=
  withSel s fun c =>
    if c.phase = .busy then
      match c.req with
      | some r => .next (s.setSel { c with work := workStep r c.work })
      | none => .fault .readUnwrittenReq
    else .fault .workNotBusy

end Sys2Proof.Machine
end

