-- ==== Sys2Proof/Machine/Dispatch.lean ====
section
/-! DEFINITION. One arm per constructor of Instr, each one direct call of its meaning (30_encoding R57). -/

namespace Sys2Proof.Machine

def exec (i : Instr) (s : State) : Host.Outcome State Fault Refusal :=
  match i with
  | .crc data gen => Sys2Proof.Machine.execCrc data gen s
  | .csum data gen => Sys2Proof.Machine.execCsum data gen s
  | .par data gen => Sys2Proof.Machine.execPar data gen s
  | .ham74 data gen => Sys2Proof.Machine.execHam74 data gen s
  | .luhn data gen => Sys2Proof.Machine.execLuhn data gen s

end Sys2Proof.Machine
end

