-- ==== Sys2Proof/Machine/Step.lean ====
section
/-! DEFINITION. One step of the platform: one action of one agent. It only calls what stands in the other files. -/

namespace Sys2Proof.Machine

/-- COMPLETE of the selected instance: the latched request is decoded and run, or answered ILLEGAL_OP
(10_state R30, 60 R141). -/
def completeSel (s : State) : Host.Outcome State Fault Refusal :=
  match fetch s with
  | .run i => exec i s
  | .illegal why => answerIllegal why s
  | .stop f => .fault f

/-- One action at the selected instance. -/
def perform (a : Action) (s : State) : Host.Outcome State Fault Refusal :=
  match a with
  | .issue r => issueSel r s
  | .read => readSel s
  | .readRsp => readRspSel s
  | .ack => ackSel s
  | .work => workOne s
  | .complete => completeSel s
  | .reset => resetSel s

/-- One step: the next event; with nothing waiting and nothing BUSY, the platform waits for its hosts unchanged. A step
that stops, at whichever instance, stops the whole platform: the model's choice (DESIGN CHOICE, log 12). -/
def step (s : State) : Host.Outcome State Fault Refusal :=
  match s.nextEvent with
  | some (a, s') => perform a s'
  | none => .next s

/-- `s` with the opcode-table word `w` latched as the request of instance 0 and its COMPLETE the next event, so that the
very next step runs it (log 8). -/
def State.withFetchWord (s : State) (nbits w : Nat) : State := s.placeRequest (tableRequest nbits w)

end Sys2Proof.Machine
end

