-- ==== Sys2Proof/Machine/Assembler.lean ====
section
/-! DEFINITION. The written form of a request (30_encoding R71): the assembly of one line of text, and the line that
writes a request. It is notation: no step uses it. There are no pseudo-instructions (30_encoding R72). -/

namespace Sys2Proof.Machine

/-- What a line assembles to. -/
inductive Assembled where
  /-- A request. -/
  | request (r : Request)
  /-- An empty line or a comment. -/
  | nothing
  /-- Not a line of the form of 30_encoding R71. -/
  | malformed
  deriving DecidableEq, Repr

/-- A space or a tab. -/
def isBlank (c : Char) : Bool := c == ' ' || c == '\t'

/-- The text from its first character that is not blank. -/
def skipBlanks (t : List Char) : List Char := t.dropWhile isBlank

/-- The value of a hexadecimal digit, in either case. -/
def hexValue (c : Char) : Option Nat :=
  if '0'.toNat ≤ c.toNat ∧ c.toNat ≤ '9'.toNat then some (c.toNat - '0'.toNat)
  else if 'A'.toNat ≤ c.toNat ∧ c.toNat ≤ 'F'.toNat then some (c.toNat - 'A'.toNat + 10)
  else if 'a'.toNat ≤ c.toNat ∧ c.toNat ≤ 'f'.toNat then some (c.toNat - 'a'.toNat + 10)
  else none

/-- The byte of two hexadecimal digits. -/
def hexByte (a b : Char) : Option Byte :=
  match hexValue a, hexValue b with
  | some x, some y => some (BitVec.ofNat 8 (16 * x + y))
  | _, _ => none

/-- The hexadecimal digit of a number below 16. -/
def hexDigit (n : Nat) : Char := if n < 10 then Char.ofNat ('0'.toNat + n) else Char.ofNat ('A'.toNat + (n - 10))

/-- The two hexadecimal digits of a byte. -/
def hexPair (b : Byte) : List Char := [hexDigit (b.toNat / 16), hexDigit (b.toNat % 16)]

/-- Puts a symbol before what the rest of a string gives. -/
def consSym (c : Sym) : Option (List Sym × List Char) → Option (List Sym × List Char)
  | some (s, rest) => some (c :: s, rest)
  | none => none

/-- Where the reader of a string stands: at a character, behind a backslash, behind `\x`, or behind its first digit. -/
inductive Scan where
  | plain
  | escape
  | hex
  | hexLow (high : Char)
  deriving DecidableEq, Repr

/-- The symbols of a string, from behind its opening quote, and the text behind its closing quote. Each character is one
symbol; `\xHH`, `\\` and `\"` are the escapes (30_encoding R71). -/
def scanString : List Char → Scan → Option (List Sym × List Char)
  | [], _ => none
  | c :: rest, .plain =>
    if c = '"' then some ([], rest)
    else if c = '\\' then scanString rest .escape
    else if c.toNat < 256 then consSym (BitVec.ofNat 8 c.toNat) (scanString rest .plain)
    else none
  | c :: rest, .escape =>
    if c = 'x' then scanString rest .hex
    else if c = '\\' ∨ c = '"' then consSym (BitVec.ofNat 8 c.toNat) (scanString rest .plain)
    else none
  | c :: rest, .hex => scanString rest (.hexLow c)
  | c :: rest, .hexLow high =>
    match hexByte high c with
    | some y => consSym y (scanString rest .plain)
    | none => none

/-- A quoted string, after blanks. -/
def quoted (t : List Char) : Option (List Sym × List Char) :=
  match skipBlanks t with
  | '"' :: rest => scanString rest .plain
  | _ => none

/-- The text behind a comma, after blanks, if there is one. -/
def afterComma (t : List Char) : Option (List Char) :=
  match skipBlanks t with
  | ',' :: rest => some rest
  | _ => none

/-- Nothing but blanks and a comment is left: a semicolon starts a comment (30_encoding R71). -/
def atEnd (t : List Char) : Bool :=
  match skipBlanks t with
  | [] => true
  | c :: _ => c == ';'

/-- The operands `"<data>"` or `"<data>", "<gen>"` to the end of the line. A form with one string has an empty GEN
(30_encoding R71); `needsGen` is the form of `CRC`, which is written with both. -/
def operands (op : Byte) (needsGen : Bool) (t : List Char) : Assembled :=
  match quoted t with
  | none => .malformed
  | some (data, t') =>
    match afterComma t' with
    | none => if atEnd t' && !needsGen then .request ⟨op, data, []⟩ else .malformed
    | some t'' =>
      match quoted t'' with
      | some (gen, rest) => if atEnd rest then .request ⟨op, data, gen⟩ else .malformed
      | none => .malformed

/-- The raw form behind `.req`: `0x<hh>, ` and the operands (30_encoding R71). -/
def rawForm (t : List Char) : Assembled :=
  match skipBlanks t with
  | '0' :: 'x' :: a :: b :: rest =>
    match hexByte a b, afterComma rest with
    | some op, some t' => operands op false t'
    | _, _ => .malformed
  | _ => .malformed

/-- A character of a mnemonic. -/
def isNameChar (c : Char) : Bool := !(isBlank c || c == '"' || c == ';')

/-- The assembly of one line (30_encoding R71). -/
def assemble (text : List Char) : Assembled :=
  if atEnd text then .nothing
  else
    let t := skipBlanks text
    let name := t.takeWhile isNameChar
    let rest := t.dropWhile isNameChar
    if name = ['C', 'R', 'C'] then operands 0x00#8 true rest
    else if name = ['C', 'S', 'U', 'M'] then operands 0x01#8 false rest
    else if name = ['P', 'A', 'R'] then operands 0x02#8 false rest
    else if name = ['H', 'A', 'M', '7', '4'] then operands 0x03#8 false rest
    else if name = ['L', 'U', 'H', 'N'] then operands 0x04#8 false rest
    else if name = ['.', 'r', 'e', 'q'] then rawForm rest
    else .malformed

/-- How one symbol is written inside a string. -/
def symText (c : Sym) : List Char :=
  if c = 0x22#8 then ['\\', '"']
  else if c = 0x5C#8 then ['\\', '\\']
  else if 0x20#8 ≤ c ∧ c ≤ 0x7E#8 then [Char.ofNat c.toNat]
  else '\\' :: 'x' :: hexPair c

/-- A string with its quotes. -/
def stringText (s : List Sym) : List Char := '"' :: (s.flatMap symText ++ ['"'])

/-- The raw line that writes any request (30_encoding R71). -/
def rawText (r : Request) : List Char :=
  ['.', 'r', 'e', 'q', ' ', '0', 'x'] ++ hexPair r.op ++ [',', ' '] ++ stringText r.data ++ [',', ' '] ++
    stringText r.gen

/-- The line that writes a request: by its mnemonic where 30_encoding R71 gives that form, else raw (DESIGN
CHOICE, log 10). -/
def requestText (r : Request) : List Char :=
  match decode r with
  | .instr (.crc data gen) => ['C', 'R', 'C', ' '] ++ stringText data ++ [',', ' '] ++ stringText gen
  | .instr (.csum data []) => ['C', 'S', 'U', 'M', ' '] ++ stringText data
  | .instr (.par data []) => ['P', 'A', 'R', ' '] ++ stringText data
  | .instr (.ham74 data []) => ['H', 'A', 'M', '7', '4', ' '] ++ stringText data
  | .instr (.luhn data []) => ['L', 'U', 'H', 'N', ' '] ++ stringText data
  | _ => rawText r

end Sys2Proof.Machine
end

