-- ==== Sys2Proof/Safety.lean ====
section
/-! DEFINITION. The terms in which claims speak: states a run can be in, what the host has observed, and when a run has
ended (10_state R21 to R23, 20_memory R48, 70_reset R164). -/

namespace Sys2Proof.Machine

/-- PHASE, REQ, RSP and the working state of one instance fit together: IDLE holds nothing (10_state R22, R33); BUSY
holds an admitted request, no response, and a working state its unit reaches (R23, R25, R29); DONE holds the request and
its own response (R22, R48) and no working state. -/
def Inst.Inv (c : Inst) : Prop :=
  match c.phase with
  | .idle => c.req = none ∧ c.rsp = none ∧ c.work = .empty
  | .busy => ∃ r, c.req = some r ∧ r.admitted = true ∧ c.rsp = none ∧ ∃ m, c.work = workAfter r m
  | .done => ∃ r, c.req = some r ∧ r.admitted = true ∧ c.rsp = some (coreResponse r) ∧ c.work = .empty

/-- The platform's invariant: NUM_INSTANCES instances (00_scope R7), each of which fits together. -/
def State.Inv (s : State) : Prop := s.insts.length = Config.numInstances ∧ ∀ c ∈ s.insts, c.Inv

/-- The selected instance is BUSY: where COMPLETE is enabled (10_state R30). -/
def State.busy (s : State) : Prop := ∃ c, s.selected = some c ∧ c.phase = .busy

/-- The selected instance is BUSY with the request `r` latched. -/
def State.latched (s : State) (r : Request) : Prop := ∃ c, s.selected = some c ∧ c.phase = .busy ∧ c.req = some r

/-- `s` after COMPLETE with the response `x` at the selected instance: RSP is `x`, PHASE is DONE and the working state
is given up; REQ, every other instance and the model's own fields are as they were. -/
def State.answered (x : Response) (s : State) : State := { s with insts := s.insts.modify s.sel (Inst.answer x) }

/-- What a host that follows one instance knows of its run: the request it has outstanding, the response it has read to
it, the pairs so far, every request issued, and those it acknowledged with no response read, oldest first
(70_reset R164). -/
structure Follow where
  cur : Option Request
  got : Option Response
  pairs : List (Request × Response)
  issued : List Request
  unread : List Request
  deriving DecidableEq, Repr

/-- What a host knows where a run begins. -/
def Follow.start : Follow := ⟨none, none, [], [], []⟩

/-- The pair of the outstanding request and the response read to it, if it was read. -/
def Follow.pair (f : Follow) : List (Request × Response) :=
  match f.cur, f.got with
  | some r, some x => [(r, x)]
  | _, _ => []

/-- The outstanding request, if no response was read to it. -/
def Follow.missed (f : Follow) : List Request :=
  match f.cur, f.got with
  | some r, none => [r]
  | _, _ => []

/-- Takes one more answer in. A pair is complete at ACK; a reset begins a new run (70_reset R164; log 6). -/
def Follow.next (f : Follow) : Answer → Follow
  | .issued r => { f with cur := some r, got := none, issued := f.issued ++ [r] }
  | .phase _ => f
  | .response x => { f with got := some x }
  | .acked => { f with cur := none, got := none, pairs := f.pairs ++ f.pair, unread := f.unread ++ f.missed }
  | .reset => Follow.start

/-- What was seen at the instance `k`, oldest first. -/
def State.seenAt (s : State) (k : Nat) : List Answer := (s.seen.filter fun e => e.inst == k).map Seen.ans

/-- What a host that follows the instance `k` knows. -/
def State.follow (s : State) (k : Nat) : Follow := (s.seenAt k).foldl Follow.next Follow.start

/-- The observation of a run at the instance `k`: the pairs of request and response, each read in DONE
(70_reset R164). -/
def State.observation (s : State) (k : Nat) : List (Request × Response) := (s.follow k).pairs

/-- What a host knows agrees with its instance: its outstanding request is the one latched, a response it has read is the
one held, every pair is a request with that request's own response, and where none was acknowledged unread the requests
issued are those of the pairs and the outstanding one. -/
def Follow.Agrees (f : Follow) (c : Inst) : Prop :=
  f.cur = c.req ∧ (∀ x, f.got = some x → c.rsp = some x) ∧ (∀ p ∈ f.pairs, p.2 = coreResponse p.1) ∧
    (f.unread = [] → f.issued = f.pairs.map Prod.fst ++ f.cur.toList)

/-- What was seen agrees with every instance. -/
def State.SeenInv (s : State) : Prop := ∀ k c, s.insts[k]? = some c → (s.follow k).Agrees c

/-- Where an action is enabled: ISSUE of an admitted request in IDLE, READ and reset in any phase, READ of RSP and ACK in
DONE, a working step and COMPLETE in BUSY (10_state R28 to R32, 70_reset R155, R160). That a working step is enabled in
every BUSY state, also where the unit has no step to take, is the model's choice (DESIGN CHOICE, log 2, log 11). -/
def Action.allowed : Action → Inst → Prop
  | .issue r, c => c.phase = .idle ∧ r.data.length ≤ Config.maxDataLen ∧ r.gen.length ≤ Config.maxGenLen
  | .read, _ | .reset, _ => True
  | .readRsp, c | .ack, c => c.phase = .done
  | .work, c | .complete, c => c.phase = .busy

/-- An action that a host takes (10_state R28, R31, R32). -/
def Action.byHost : Action → Bool
  | .issue _ | .read | .readRsp | .ack => true
  | .work | .complete | .reset => false

/-- What is left of the run at the instance `k`: the actions scripted there, up to the next reset, which begins another
run (70_reset R164). -/
def State.leftAt (s : State) (k : Nat) : List Action :=
  ((s.script.filter fun e => e.inst == k).map Event.act).takeWhile fun a => decide (a ≠ .reset)

/-- The run at the instance `k` has ended: its host has no action left in it, PHASE is IDLE, and no request of it was
acknowledged unread, since every request of an ended run has been read (70_reset R164; log 13). -/
def State.ended (s : State) (k : Nat) : Prop :=
  (∀ a ∈ s.leftAt k, a.byHost = false) ∧ (∃ c, s.insts[k]? = some c ∧ c.phase = .idle) ∧ (s.follow k).unread = []

/-- A bit string in the spec's words: every symbol is `0x30` or `0x31` (30_encoding R62). -/
def BitString (s : List Sym) : Prop := ∀ c ∈ s, c = 0x30#8 ∨ c = 0x31#8

/-- A digit string in the spec's words: every symbol is in `0x30 .. 0x39` (30_encoding R62). -/
def DigitString (s : List Sym) : Prop := ∀ c ∈ s, 0x30 ≤ c.toNat ∧ c.toNat ≤ 0x39

end Sys2Proof.Machine
end

