-- ==== Sys2Proof/Certificates/Slice0/Obligations.lean ====
section
/-! DEFINITION. The statements for the provers. `s.answered x` is `s` after COMPLETE with the response `x`: RSP and PHASE
of the selected instance written, its working state given up (log 2), all else as it was. Status bytes and symbols are written
out as numbers, so that a statement does not lean on the model's own tables. -/

open Sys2Proof Sys2Proof.Machine

/-! ### Parameters and reset -/

/-- 00_scope R7: the least values of the OPEN parameters, and a request is admitted exactly within its bounds. -/
def Obligations.ParametersMeetTheirBounds : Prop :=
  4 ≤ Config.maxDataLen ∧ 2 ≤ Config.maxGenLen ∧ 1 ≤ Config.numInstances ∧
    ∀ r : Request, r.admitted = true ↔ r.data.length ≤ Config.maxDataLen ∧ r.gen.length ≤ Config.maxGenLen

/-- 10_state R33: after reset there are NUM_INSTANCES instances (00_scope R7), every one IDLE with no value in REQ, RSP
and the working state; and an operation answers one and the same response whatever REQ, RSP and the working state held.
That COMPLETE leaves the working state empty is the model's reading (DEDUCED, log 2). -/
def Obligations.ResetLeavesInstancesIdleAndEmpty : Prop :=
  State.reset.insts.length = Config.numInstances ∧
    (∀ c ∈ State.reset.insts, c.phase = .idle ∧ c.req = none ∧ c.rsp = none ∧ c.work = .empty) ∧
    ∀ i : Instr, ∃ x, ∀ (r : Option Request) (y : Option Response) (w : Work),
      exec i ⟨[⟨.busy, r, y, w⟩], 0, [], []⟩ = .next ⟨[⟨.done, r, some x, .empty⟩], 0, [], []⟩

/-- The reset state meets both invariants that steps keep. Rests on the model's choice of an empty `script` and `seen`
(log 4, log 6). -/
def Obligations.ResetMeetsBothInvariants : Prop := State.reset.Inv ∧ State.reset.SeenInv

/-- 70_reset R155: reset, in any phase, leaves PHASE = IDLE and no value in REQ, RSP and the working state. What it
adds to `seen` is the model's own record (log 6). -/
def Obligations.ResetEventClearsInstance : Prop :=
  ∀ (s s' : State) (c : Inst), s.nextEvent = some (.reset, s') → s'.selected = some c →
    step s = .next { s' with
      insts := s'.insts.set s'.sel ⟨.idle, none, none, .empty⟩
      seen := s'.seen ++ [⟨s'.sel, .reset⟩] }

/-- 70_reset R157: after a reset a READ of RSP before the next COMPLETE is a fault: at once, and after any events `mid`
that hold no COMPLETE at the instance and themselves all have a move. -/
def Obligations.ReadOfResponseAfterResetFaults : Prop :=
  (∀ (s : State) (k : Nat) (rest : List Event) (c : Inst),
    s.script = ⟨k, .reset⟩ :: ⟨k, .readRsp⟩ :: rest → s.insts[k]? = some c →
      Host.Core.run core 2 s = .fault Fault.readUnwrittenRsp) ∧
  ∀ (s u : State) (k : Nat) (mid rest : List Event),
    s.script = ⟨k, .reset⟩ :: (mid ++ ⟨k, .readRsp⟩ :: rest) → (∀ e ∈ mid, e ≠ ⟨k, .complete⟩) →
      Host.Core.run core (mid.length + 1) s = .next u →
        Host.Core.run core (mid.length + 2) s = .fault Fault.readUnwrittenRsp

/-- 70_reset R156: a request that reset discards in BUSY gives, issued again, the response it would have given. -/
def Obligations.ReissueAfterResetGivesTheLostResponse : Prop :=
  ∀ (s : State) (k : Nat) (rest : List Event) (c : Inst) (r : Request),
    s.script = ⟨k, .reset⟩ :: ⟨k, .issue r⟩ :: ⟨k, .complete⟩ :: rest → s.insts[k]? = some c →
      c.phase = .busy → c.req = some r → r.admitted = true →
        ∃ (x : Response) (t u v : State), perform .complete { s with sel := k } = .next u ∧
          u.insts[k]? = some { c with phase := .done, rsp := some x, work := .empty } ∧
          Host.Core.run core 1 s = .next v ∧ v.insts[k]? = some ⟨.idle, none, none, .empty⟩ ∧
          Host.Core.run core 3 s = .next t ∧ t.insts[k]? = some ⟨.done, some r, some x, .empty⟩

/-! ### Encoding -/

/-- 30_encoding R57: each command byte's operation, and exactly which bytes select one. -/
def Obligations.CommandByteSelectsOperation : Prop :=
  ∀ r : Request,
    (r.op = 0x00#8 → decode r = .instr (.crc r.data r.gen)) ∧
    (r.op = 0x01#8 → decode r = .instr (.csum r.data r.gen)) ∧
    (r.op = 0x02#8 → decode r = .instr (.par r.data r.gen)) ∧
    (r.op = 0x03#8 → decode r = .instr (.ham74 r.data r.gen)) ∧
    (r.op = 0x04#8 → decode r = .instr (.luhn r.data r.gen)) ∧
    ((∃ i, decode r = .instr i) ↔ r.op.toNat / 8 = 0 ∧ r.op.toNat % 8 ≤ 4)

/-- Words written out from 30_encoding R57 decode to their operations, and two illegal ones to none: a sanity check.
-/
def Obligations.WrittenOutWordsDecode : Prop :=
  decodeTableWord 8 0b00000000 = some (.crc [] []) ∧ decodeTableWord 8 0b00000001 = some (.csum [] []) ∧
    decodeTableWord 8 0b00000010 = some (.par [] []) ∧ decodeTableWord 8 0b00000011 = some (.ham74 [] []) ∧
    decodeTableWord 8 0b00000100 = some (.luhn [] []) ∧ decodeTableWord 8 0b00000101 = none ∧
    decodeTableWord 8 0b00001000 = none ∧
    decode ⟨0x00#8, [0x31#8, 0x30#8], [0x31#8, 0x31#8]⟩ = .instr (.crc [0x31#8, 0x30#8] [0x31#8, 0x31#8])

/-- Decoding and encoding are inverse to each other on the requests that select an operation. -/
def Obligations.DecodeAndEncodeAreInverse : Prop :=
  (∀ i : Instr, decode (encode i) = .instr i) ∧ ∀ (r : Request) (i : Instr), decode r = .instr i → encode i = r

/-- The written form of 30_encoding R71 loses nothing: every request, illegal ones too, assembles back from its raw line
and from its line by mnemonic where R71 gives that form, else raw (DESIGN CHOICE, log 10: CRC by mnemonic, CSUM, PAR,
HAM74 and LUHN by mnemonic where GEN is empty, all else by `.req`); and the line so written for an instruction assembles
and decodes back to it, with every symbol of both operands at every value. -/
def Obligations.WrittenRequestAssemblesAndDecodes : Prop :=
  (∀ r : Request, assemble (rawText r) = .request r ∧ assemble (requestText r) = .request r) ∧
    ∀ i : Instr, ∃ r, assemble (requestText (encode i)) = .request r ∧ decode r = .instr i

/-- 30_encoding R58, R59, 60_exceptions R137: a request whose byte names no operation is answered ILLEGAL_OP (4) with
an
empty result, whatever its operands. -/
def Obligations.IllegalByteIsAnsweredIllegalOp : Prop :=
  ∀ (s s' : State) (r : Request), s.nextEvent = some (.complete, s') → s'.latched r →
    (r.op.toNat / 8 ≠ 0 ∨ 5 ≤ r.op.toNat % 8) → step s = .next (s'.answered ⟨0x04#8, []⟩)

/-- 30_encoding R62: the symbol classes, the values of bits and digits, and the well-formed operands. -/
def Obligations.SymbolClassesAndValues : Prop :=
  (∀ c : Sym,
    (isBit c = true ↔ c = 0x30#8 ∨ c = 0x31#8) ∧ (isDigit c = true ↔ 0x30 ≤ c.toNat ∧ c.toNat ≤ 0x39) ∧
    (isBit c = true → (bitOf c).toNat = c.toNat - 0x30) ∧
    (isDigit c = true → digitOf c = c.toNat - 0x30 ∧ digitOf c ≤ 9)) ∧
  (∀ s : List Sym, (isBitString s = true ↔ BitString s) ∧ (isDigitString s = true ↔ DigitString s)) ∧
  isBitString [] = true ∧ isDigitString [] = true

/-! ### The step -/

/-- A step runs the decoded instruction: where COMPLETE at instance `k` is the oldest event, and where nothing is left
to happen and `k` is the first BUSY instance. The step takes the event off `script` and selects the instance, both the
model's own fields (log 4, log 5). -/
def Obligations.StepRunsTheDecodedInstruction : Prop :=
  (∀ (s : State) (k : Nat) (rest : List Event) (c : Inst) (r : Request) (i : Instr),
    s.script = ⟨k, .complete⟩ :: rest → s.insts[k]? = some c → c.phase = .busy → c.req = some r →
      decode r = .instr i → step s = exec i { s with script := rest, sel := k }) ∧
  ∀ (s : State) (k : Nat) (c : Inst) (r : Request) (i : Instr),
    s.script = [] → s.insts[k]? = some c → c.phase = .busy →
      (∀ j d, j < k → s.insts[j]? = some d → d.phase ≠ .busy) → c.req = some r →
        decode r = .instr i → step s = exec i { s with sel := k }

/-- With nothing left to happen and nothing BUSY a step changes nothing: the model's choice (log 4). -/
def Obligations.PlatformWaitsForItsHosts : Prop :=
  ∀ s : State, s.script = [] → (∀ c ∈ s.insts, c.phase ≠ .busy) → step s = .next s

/-- 60_exceptions R141: COMPLETE's dispatch, and the first of several errors. -/
def Obligations.DispatchFollowsTheErrorPriority : Prop :=
  ∀ (s s' : State) (r : Request), s.nextEvent = some (.complete, s') → s'.latched r →
    (step s = .next (s'.answered (
      if r.op.toNat / 8 ≠ 0 ∨ r.op.toNat % 8 > 4 then ⟨0x04#8, []⟩
      else if r.op.toNat % 8 = 0 then crcResponse r.data r.gen
      else if r.op.toNat % 8 = 1 then csumResponse r.data r.gen
      else if r.op.toNat % 8 = 2 then parResponse r.data r.gen
      else if r.op.toNat % 8 = 3 then ham74Response r.data r.gen
      else luhnResponse r.data r.gen))) ∧
    (r.op = 0x00#8 → r.gen.length < 2 ∨ ¬ BitString r.gen → step s = .next (s'.answered ⟨0x01#8, []⟩)) ∧
    (r.op = 0x00#8 → 2 ≤ r.gen.length → BitString r.gen → ¬ BitString r.data →
      step s = .next (s'.answered ⟨0x03#8, []⟩)) ∧
    (r.op = 0x01#8 ∨ r.op = 0x02#8 → ¬ BitString r.data → step s = .next (s'.answered ⟨0x03#8, []⟩)) ∧
    (r.op = 0x03#8 → r.data.length ≠ 4 → step s = .next (s'.answered ⟨0x02#8, []⟩)) ∧
    (r.op = 0x03#8 → r.data.length = 4 → ¬ BitString r.data → step s = .next (s'.answered ⟨0x03#8, []⟩)) ∧
    (r.op = 0x04#8 → ¬ DigitString r.data → step s = .next (s'.answered ⟨0x03#8, []⟩))

/-- 00_scope R15: one function of the request alone gives every response, in every state and after every history. -/
def Obligations.ResponseIsAFunctionOfTheRequest : Prop :=
  ∃ f : Request → Response, ∀ (s s' : State) (r : Request),
    s.nextEvent = some (.complete, s') → s'.latched r → step s = .next (s'.answered (f r))

/-! ### CRC -/

/-- 40_crc R81: exactly the generators that are no bit string of length at least 2 raise INVALID_GENERATOR (1). -/
def Obligations.CrcChecksItsGenerator : Prop :=
  ∀ (s : State) (data gen : List Sym), s.busy →
    ((gen.length < 2 ∨ ¬ BitString gen) → exec (.crc data gen) s = .next (s.answered ⟨0x01#8, []⟩)) ∧
    (2 ≤ gen.length → BitString gen → ∃ x, exec (.crc data gen) s = .next (s.answered x) ∧ x.status ≠ 0x01#8)

/-- 40_crc R82: with a valid generator, a data symbol that is no bit raises INVALID_INPUT (3); the data may be empty.
-/
def Obligations.CrcChecksItsData : Prop :=
  ∀ (s : State) (data gen : List Sym), s.busy → 2 ≤ gen.length → BitString gen →
    (¬ BitString data → exec (.crc data gen) s = .next (s.answered ⟨0x03#8, []⟩)) ∧
    ∃ x, exec (.crc [] gen) s = .next (s.answered x) ∧ x.status = 0x00#8

/-- 40_crc R83 to R86: for the buffers `B 0, B 1, …` of the division, one for each position of the scan, every buffer
has the size `n+g-1` and the result is the last `g-1` bits of `B n`. Symbol `0x31` is the bit 1. -/
def Obligations.CrcDividesByWindowXor : Prop :=
  ∀ (s : State) (data gen : List Sym) (B : Nat → List Bit), s.busy → BitString data → BitString gen → 2 ≤ gen.length →
    B 0 = data.map (fun c => decide (c = 0x31#8)) ++ List.replicate (gen.length - 1) false →
    (∀ i p, i < data.length → (B (i + 1))[p]? =
      if (B i)[i]? = some true ∧ i ≤ p ∧ p < i + gen.length
        then (B i)[p]?.map fun b => (b ^^ decide (gen[p - i]? = some 0x31#8)) else (B i)[p]?) →
    (∀ i, i ≤ data.length → (B i).length = data.length + gen.length - 1) ∧
    exec (.crc data gen) s =
      .next (s.answered ⟨0x00#8, ((B data.length).drop data.length).take (gen.length - 1)⟩)

/-- 40_crc R87 (an inference of the spec, "derived: from rule R83, rule R84 and rule R86"): the remainder has `g-1`
bits, at least one and at most MAX_GEN_LEN - 1, and is all zero for no data. -/
def Obligations.CrcRemainderLength : Prop :=
  ∀ (s : State) (data gen : List Sym), s.busy → BitString data → BitString gen → 2 ≤ gen.length →
    gen.length ≤ Config.maxGenLen →
      (∃ r, exec (.crc data gen) s = .next (s.answered ⟨0x00#8, r⟩) ∧ r.length = gen.length - 1 ∧ 1 ≤ r.length ∧
        r.length ≤ Config.maxGenLen - 1) ∧
      exec (.crc [] gen) s = .next (s.answered ⟨0x00#8, List.replicate (gen.length - 1) false⟩)

/-- 40_crc R88 (an inference of the spec, "derived: from rule R80 and rule R89"): dividing the data with its remainder
appended leaves all zeros. -/
def Obligations.CrcSelfCheck : Prop :=
  ∀ (s s' : State) (data gen : List Sym), s.busy → s'.busy → BitString data → BitString gen → 2 ≤ gen.length →
    ∃ r, exec (.crc data gen) s = .next (s.answered ⟨0x00#8, r⟩) ∧
      exec (.crc (data ++ r.map fun b => if b then 0x31#8 else 0x30#8) gen) s' =
        .next (s'.answered ⟨0x00#8, List.replicate (gen.length - 1) false⟩)

/-- 40_crc R89 (an inference of the spec, "derived: from rule R84 and rule R86"): the result does not depend on the
first bit of the generator. -/
def Obligations.CrcIgnoresTheFirstGeneratorBit : Prop :=
  ∀ (s : State) (data gen : List Sym) (c : Sym), s.busy → BitString data → 1 ≤ gen.length → BitString (c :: gen) →
    ∃ r, exec (.crc data (c :: gen)) s = .next (s.answered ⟨0x00#8, r⟩) ∧
      exec (.crc data (0x31#8 :: gen)) s = .next (s.answered ⟨0x00#8, r⟩)

/-- 40_crc R90 (an inference of the spec, "derived: from rule R84, rule R86 and rule R89"): the four generators of
length 2. -/
def Obligations.CrcByTwoBitGenerators : Prop :=
  ∀ (s : State) (data gen' : List Sym), s.busy → BitString data →
    ∃ b, exec (.par data gen') s = .next (s.answered ⟨0x00#8, [b]⟩) ∧
      exec (.crc data [0x31#8, 0x31#8]) s = .next (s.answered ⟨0x00#8, [b]⟩) ∧
      exec (.crc data [0x30#8, 0x31#8]) s = .next (s.answered ⟨0x00#8, [b]⟩) ∧
      exec (.crc data [0x31#8, 0x30#8]) s = .next (s.answered ⟨0x00#8, [false]⟩) ∧
      exec (.crc data [0x30#8, 0x30#8]) s = .next (s.answered ⟨0x00#8, [false]⟩)

/-- 40_crc R83 to R86, R91 ("derived: from rule R80"): the divider's working run starts from the dividend, keeps the
buffer's size, takes one position a step, and after exactly `n` of them holds the result. That the start is a working
step of its own, before COMPLETE, is the model's choice (log 2, log 11). -/
def Obligations.CrcWorkingRunEndsInTheResult : Prop :=
  ∀ data gen : List Sym, BitString data → BitString gen → 2 ≤ gen.length →
    workAfter (encode (.crc data gen)) 1 =
      .crc (data.map (fun c => decide (c = 0x31#8)) ++ List.replicate (gen.length - 1) false) 0 ∧
    (∀ i, i ≤ data.length →
      ∃ B, workAfter (encode (.crc data gen)) (i + 1) = .crc B i ∧ B.length = data.length + gen.length - 1) ∧
    (∀ i B, i < data.length → workAfter (encode (.crc data gen)) (i + 1) = .crc B i →
      ∃ B', workAfter (encode (.crc data gen)) (i + 2) = .crc B' (i + 1) ∧
        ∀ p, B'[p]? = if B[i]? = some true ∧ i ≤ p ∧ p < i + gen.length
          then B[p]?.map fun b => (b ^^ decide (gen[p - i]? = some 0x31#8)) else B[p]?) ∧
    ∃ B, workAfter (encode (.crc data gen)) (data.length + 1) = .crc B data.length ∧
      coreResponse (encode (.crc data gen)) = ⟨0x00#8, (B.drop data.length).take (gen.length - 1)⟩

/-! ### CSUM -/

/-- 41_checksum R96: a data symbol that is no bit raises INVALID_INPUT (3) and no sum is formed. -/
def Obligations.CsumChecksItsData : Prop :=
  ∀ (s : State) (data gen : List Sym), s.busy → ¬ BitString data →
    exec (.csum data gen) s = .next (s.answered ⟨0x03#8, []⟩)

/-- 41_checksum R97 to R101: the symbol at index `i` weighs `2^(e-1-i)`, where `e` is the end of its group of eight or
of the data; the sum modulo 256 is written in eight bits, most significant first. -/
def Obligations.CsumSumsGroupsModulo256 : Prop :=
  ∀ (s : State) (data gen : List Sym), s.busy → BitString data →
    exec (.csum data gen) s = .next (s.answered ⟨0x00#8, (List.range 8).map fun j => decide (
      ((List.range data.length).map fun i =>
        if data[i]? = some 0x31#8 then 2 ^ (min (8 * (i / 8) + 8) data.length - 1 - i) else 0).sum
          % 256 / 2 ^ (7 - j) % 2 = 1)⟩)

/-- 41_checksum R103: the checksum of no data is `00000000`. -/
def Obligations.CsumOfNoDataIsZero : Prop :=
  ∀ (s : State) (gen : List Sym), s.busy →
    exec (.csum [] gen) s =
      .next (s.answered ⟨0x00#8, [false, false, false, false, false, false, false, false]⟩)

/-- 41_checksum R102 ("derived: from rule R95 and rule R99"): the 8-bit accumulator starts at 0, adds group after
group
modulo 256 and ends in the result, which does not depend on the order of the groups. What the index `k` counts is the
model's choice (log 11). -/
def Obligations.CsumAccumulatorEndsInTheResult : Prop :=
  ∀ data gen : List Sym, BitString data →
    workAfter (encode (.csum data gen)) 1 = .csum 0#8 0 ∧
    (∀ k acc, k < (data.length + 7) / 8 → workAfter (encode (.csum data gen)) (k + 1) = .csum acc k →
      workAfter (encode (.csum data gen)) (k + 2) =
        .csum (BitVec.ofNat 8 ((acc.toNat + val (((bitsOf data).drop (8 * k)).take 8)) % 256)) (k + 1)) ∧
    (∃ acc, workAfter (encode (.csum data gen)) ((data.length + 7) / 8 + 1) = .csum acc ((data.length + 7) / 8) ∧
      coreResponse (encode (.csum data gen)) = ⟨0x00#8, bits8 acc.toNat⟩) ∧
    ∀ ks : List Nat, ks.Perm (List.range ((data.length + 7) / 8)) →
      coreResponse (encode (.csum data gen)) =
        ⟨0x00#8, bits8 ((ks.map fun k => val (((bitsOf data).drop (8 * k)).take 8)).sum % 256)⟩

/-! ### PAR -/

/-- 42_parity R106: a data symbol that is no bit raises INVALID_INPUT (3). -/
def Obligations.ParChecksItsData : Prop :=
  ∀ (s : State) (data gen : List Sym), s.busy → ¬ BitString data →
    exec (.par data gen) s = .next (s.answered ⟨0x03#8, []⟩)

/-- 42_parity R107: 0 for an even and 1 for an odd number of ones, so data and result have an even number of ones. -/
def Obligations.ParMakesTheCountEven : Prop :=
  ∀ (s : State) (data gen : List Sym), s.busy → BitString data →
    ∃ b : Bool, exec (.par data gen) s = .next (s.answered ⟨0x00#8, [b]⟩) ∧
      (b = false ↔ data.count 0x31#8 % 2 = 0) ∧ (data.count 0x31#8 + b.toNat) % 2 = 0

/-- 42_parity R109: the parity of no data is 0. -/
def Obligations.ParOfNoDataIsZero : Prop :=
  ∀ (s : State) (gen : List Sym), s.busy → exec (.par [] gen) s = .next (s.answered ⟨0x00#8, [false]⟩)

/-- 42_parity R108 ("derived: from rule R107"): the 1-bit register starts at 0, takes one symbol after the other by
XOR
and ends in the result. What the index `i` counts is the model's choice (log 11). -/
def Obligations.ParRegisterEndsInTheResult : Prop :=
  ∀ data gen : List Sym, BitString data →
    workAfter (encode (.par data gen)) 1 = .par false 0 ∧
    (∀ i p c, data[i]? = some c → workAfter (encode (.par data gen)) (i + 1) = .par p i →
      workAfter (encode (.par data gen)) (i + 2) = .par (p ^^ decide (c = 0x31#8)) (i + 1)) ∧
    ∃ p, workAfter (encode (.par data gen)) (data.length + 1) = .par p data.length ∧
      coreResponse (encode (.par data gen)) = ⟨0x00#8, [p]⟩

/-! ### HAM74 -/

/-- 43_hamming R113: any other length than 4 raises INVALID_LENGTH (2), whatever the symbols. -/
def Obligations.HammingLengthGateComesFirst : Prop :=
  ∀ (s : State) (data gen : List Sym), s.busy → data.length ≠ 4 →
    exec (.ham74 data gen) s = .next (s.answered ⟨0x02#8, []⟩)

/-- 43_hamming R114: at length 4 a symbol that is no bit raises INVALID_INPUT (3). -/
def Obligations.HammingChecksItsFourSymbols : Prop :=
  ∀ (s : State) (data gen : List Sym), s.busy → data.length = 4 → ¬ BitString data →
    exec (.ham74 data gen) s = .next (s.answered ⟨0x03#8, []⟩)

/-- 43_hamming R115 to R117: the codeword of the data bits `d0 d1 d2 d3`, in operand order; the encoder has no working
state. -/
def Obligations.HammingCodeword : Prop :=
  (∀ (s : State) (d0 d1 d2 d3 : Bool) (gen : List Sym), s.busy →
    exec (.ham74 ([d0, d1, d2, d3].map fun b => if b then 0x31#8 else 0x30#8) gen) s =
      .next (s.answered ⟨0x00#8, [d0 ^^ d1 ^^ d3, d0 ^^ d2 ^^ d3, d0, d1 ^^ d2 ^^ d3, d1, d2, d3]⟩)) ∧
  ∀ (data gen : List Sym) (m : Nat), workAfter (encode (.ham74 data gen)) m = .empty

/-- 43_hamming R118 ("derived: from rule R116 and rule R117"): the three parity checks hold in every codeword. -/
def Obligations.HammingParityChecksHold : Prop :=
  ∀ (s : State) (data gen : List Sym), s.busy → data.length = 4 → BitString data →
    ∃ c0 c1 c2 c3 c4 c5 c6 : Bool,
      exec (.ham74 data gen) s = .next (s.answered ⟨0x00#8, [c0, c1, c2, c3, c4, c5, c6]⟩) ∧
        c0 = (c2 ^^ c4 ^^ c6) ∧ c1 = (c2 ^^ c5 ^^ c6) ∧ c3 = (c4 ^^ c5 ^^ c6)

/-! ### LUHN -/

/-- 44_luhn R123: a symbol that is no digit raises INVALID_INPUT (3). -/
def Obligations.LuhnChecksItsDigits : Prop :=
  ∀ (s : State) (data gen : List Sym), s.busy → ¬ DigitString data →
    exec (.luhn data gen) s = .next (s.answered ⟨0x03#8, []⟩)

/-- 44_luhn R124 to R127: the digit at index `i` stands at position `n - i` from the right; at an even position it
adds
R125's transform of it, else itself; the result is `[1]` exactly when the sum is a multiple of 10, with status OK. -/
def Obligations.LuhnClassifiesByDigitSum : Prop :=
  ∀ (s : State) (data gen : List Sym), s.busy → DigitString data →
    exec (.luhn data gen) s = .next (s.answered ⟨0x00#8, [decide (
      ((List.range data.length).map fun i =>
        let x := ((data[i]?).getD 0x30#8).toNat - 0x30
        if (data.length - i) % 2 = 0 then [0, 2, 4, 6, 8, 1, 3, 5, 7, 9].getD x 0 else x).sum % 10 = 0)]⟩)

/-- 44_luhn R128 ("derived: from rule R126"): no data is Valid. -/
def Obligations.LuhnOfNoDataIsValid : Prop :=
  ∀ (s : State) (gen : List Sym), s.busy → exec (.luhn [] gen) s = .next (s.answered ⟨0x00#8, [true]⟩)

/-- 44_luhn R122, corner cases: leading zeros change nothing. -/
def Obligations.LuhnIgnoresLeadingZeros : Prop :=
  ∀ (s : State) (data gen : List Sym) (k : Nat), s.busy → DigitString data →
    ∃ b, exec (.luhn data gen) s = .next (s.answered ⟨0x00#8, [b]⟩) ∧
      exec (.luhn (List.replicate k 0x30#8 ++ data) gen) s = .next (s.answered ⟨0x00#8, [b]⟩)

/-- 44_luhn R124, R126: the sum register starts at 0 at the rightmost digit, stays within `9n`, and its last value
modulo 10 decides the result. What the position `j` counts is the model's choice (log 11). -/
def Obligations.LuhnSumRegisterEndsInTheResult : Prop :=
  ∀ data gen : List Sym, DigitString data →
    workAfter (encode (.luhn data gen)) 1 = .luhn 0 1 ∧
    (∀ j, j ≤ data.length → ∃ sum, workAfter (encode (.luhn data gen)) (j + 1) = .luhn sum (j + 1) ∧ sum ≤ 9 * j) ∧
    ∃ sum, workAfter (encode (.luhn data gen)) (data.length + 1) = .luhn sum (data.length + 1) ∧
      coreResponse (encode (.luhn data gen)) = ⟨0x00#8, [decide (sum % 10 = 0)]⟩

/-! ### All operations -/

/-- 30_encoding R60: the operations other than CRC ignore GEN, and so does an illegal command byte both operands. -/
def Obligations.GeneratorIsIgnoredOutsideCrc : Prop :=
  (∀ (s : State) (data gen gen' : List Sym),
    exec (.csum data gen) s = exec (.csum data gen') s ∧ exec (.par data gen) s = exec (.par data gen') s ∧
      exec (.ham74 data gen) s = exec (.ham74 data gen') s ∧ exec (.luhn data gen) s = exec (.luhn data gen') s) ∧
  ∀ (op : Byte) (data gen data' gen' : List Sym), 4 < op.toNat →
    coreResponse ⟨op, data, gen⟩ = coreResponse ⟨op, data', gen'⟩

/-- 60_exceptions R138: which statuses each operation gives, that each of them does occur, and that an error says no
more than its code. -/
def Obligations.StatusCauseTable : Prop :=
  (∀ (s : State) (i : Instr), s.busy → ∃ x, exec i s = .next (s.answered x) ∧
    (x.status ≠ 0x00#8 → x.result = []) ∧
    match i with
    | .crc _ _ => x.status = 0x00#8 ∨ x.status = 0x01#8 ∨ x.status = 0x03#8
    | .csum _ _ | .par _ _ | .luhn _ _ => x.status = 0x00#8 ∨ x.status = 0x03#8
    | .ham74 _ _ => x.status = 0x00#8 ∨ x.status = 0x02#8 ∨ x.status = 0x03#8) ∧
  (∀ r : Request, 4 < r.op.toNat → coreResponse r = ⟨0x04#8, []⟩) ∧
  ∀ s : State, s.busy →
    (∀ st ∈ [0x00#8, 0x01#8, 0x03#8],
      ∃ data gen x, exec (.crc data gen) s = .next (s.answered x) ∧ x.status = st) ∧
    (∀ st ∈ [0x00#8, 0x03#8],
      (∃ data x, exec (.csum data []) s = .next (s.answered x) ∧ x.status = st) ∧
      (∃ data x, exec (.par data []) s = .next (s.answered x) ∧ x.status = st) ∧
      ∃ data x, exec (.luhn data []) s = .next (s.answered x) ∧ x.status = st) ∧
    ∀ st ∈ [0x00#8, 0x02#8, 0x03#8],
      ∃ data x, exec (.ham74 data []) s = .next (s.answered x) ∧ x.status = st

/-- 30_encoding R68: the length of an OK result, per operation. -/
def Obligations.OkResultLengths : Prop :=
  ∀ (s : State) (i : Instr), s.busy → ∃ x, exec i s = .next (s.answered x) ∧ (x.status = 0x00#8 →
    match i with
    | .crc _ gen => x.result.length = gen.length - 1 ∧ 1 ≤ x.result.length
    | .csum _ _ => x.result.length = 8
    | .par _ _ => x.result.length = 1
    | .ham74 _ _ => x.result.length = 7
    | .luhn _ _ => x.result.length = 1)

/-- 30_encoding R63, R64: the reserved field of the status byte is zero and the codes 5 to 7 are never produced. -/
def Obligations.StatusByteFields : Prop :=
  ∀ r : Request, (coreResponse r).status.toNat / 8 = 0 ∧ (coreResponse r).status.toNat % 8 ≤ 4

/-- 60_exceptions R140: an error response is its status with an empty result, nothing but RSP and PHASE is written
(and
the working state given up, log 2), and ACK returns the block to IDLE. -/
def Obligations.ErrorGivesNoResultAndAckReturnsToIdle : Prop :=
  ∀ (s : State) (r : Request), s.latched r → (coreResponse r).status ≠ 0x00#8 →
    completeSel s = .next (s.answered ⟨(coreResponse r).status, []⟩) ∧
    ∃ t c, ackSel (s.answered ⟨(coreResponse r).status, []⟩) = .next t ∧ t.selected = some c ∧
      c.phase = .idle ∧ c.req = none ∧ c.rsp = none

/-- The frame of every operation: it writes RSP and PHASE of the selected instance, gives up its working state
(log 2), and leaves REQ, every other instance and the model's own fields. -/
def Obligations.ExecFrame : Prop :=
  ∀ (i : Instr) (s t : State), exec i s = .next t →
    t.sel = s.sel ∧ t.script = s.script ∧ t.seen = s.seen ∧ t.insts.length = s.insts.length ∧
    (∀ k, k ≠ s.sel → t.insts[k]? = s.insts[k]?) ∧
    ∃ c c', s.insts[s.sel]? = some c ∧ t.insts[s.sel]? = some c' ∧ c.phase = .busy ∧ c'.phase = .done ∧
      c'.req = c.req ∧ (∃ x, c'.rsp = some x) ∧ c'.work = .empty

/-! ### The host's actions -/

/-- 10_state R28, R29: ISSUE latches an admitted request in IDLE, whatever its byte and symbols, and has no move in
any
other case. What it adds to `seen` is the model's own record (log 6). -/
def Obligations.IssueLatchesOnlyInIdleWithinBounds : Prop :=
  ∀ (s s' : State) (r : Request) (c : Inst), s.nextEvent = some (.issue r, s') → s'.selected = some c →
    if c.phase = .idle ∧ r.data.length ≤ Config.maxDataLen ∧ r.gen.length ≤ Config.maxGenLen then
      step s = .next { s' with
        insts := s'.insts.set s'.sel { c with phase := .busy, req := some r }
        seen := s'.seen ++ [⟨s'.sel, .issued r⟩] }
    else ∀ t, step s ≠ .next t

/-- 10_state R31: ACK in DONE gives IDLE and clears REQ and RSP; in another phase it has no move. -/
def Obligations.AckReleasesOnlyInDone : Prop :=
  ∀ (s s' : State) (c : Inst), s.nextEvent = some (.ack, s') → s'.selected = some c →
    if c.phase = .done then
      step s = .next { s' with
        insts := s'.insts.set s'.sel { c with phase := .idle, req := none, rsp := none }
        seen := s'.seen ++ [⟨s'.sel, .acked⟩] }
    else ∀ t, step s ≠ .next t

/-- 10_state R32: READ returns the phase in any phase, with the response in DONE, and changes no state of the block; a
read of RSP in another phase is a fault. -/
def Obligations.ReadReturnsPhaseAndResponse : Prop :=
  (∀ (s s' : State) (c : Inst), s.nextEvent = some (.read, s') → s'.selected = some c → c.phase ≠ .done →
    step s = .next { s' with seen := s'.seen ++ [⟨s'.sel, .phase c.phase⟩] }) ∧
  (∀ (s s' : State) (a : Action) (c : Inst) (x : Response), s.nextEvent = some (a, s') → a = .read ∨ a = .readRsp →
    s'.selected = some c → c.phase = .done → c.rsp = some x →
      step s = .next { s' with seen := s'.seen ++ [⟨s'.sel, .response x⟩] }) ∧
  ∀ (s s' : State) (c : Inst), s.nextEvent = some (.readRsp, s') → s'.selected = some c → c.phase ≠ .done →
    step s = .fault .readUnwrittenRsp

/-- 70_reset R160, R165: an action moves exactly where it is enabled. That a working step moves in every BUSY state, also
where the unit has no step to take (HAM74, an illegal byte, failed checks, a finished unit) and it changes nothing, is the
model's choice (log 2, log 11). -/
def Obligations.ActionsMoveExactlyWhereEnabled : Prop :=
  ∀ (s s' : State) (a : Action) (c : Inst), s.Inv → s.nextEvent = some (a, s') → s'.selected = some c →
    ((∃ t, step s = .next t) ↔ a.allowed c)

/-- 10_state R21: the four transitions. The phase of an instance changes only by an action on it, and each action that
moves takes it from where the table says to where the table says. -/
def Obligations.PhaseTransitionsAreTheFour : Prop :=
  (∀ (s t : State) (k : Nat) (c c' : Inst), step s = .next t → s.insts[k]? = some c → t.insts[k]? = some c' →
    c'.phase ≠ c.phase → ∃ a s', s.nextEvent = some (a, s') ∧ s'.sel = k) ∧
  ∀ (s s' t : State) (a : Action) (c c' : Inst), s.nextEvent = some (a, s') → step s = .next t →
    s.insts[s'.sel]? = some c → t.insts[s'.sel]? = some c' →
      match a with
      | .issue _ => c.phase = .idle ∧ c'.phase = .busy
      | .complete => c.phase = .busy ∧ c'.phase = .done
      | .ack => c.phase = .done ∧ c'.phase = .idle
      | .reset => c'.phase = .idle
      | .read | .readRsp | .work => c'.phase = c.phase

/-- 10_state R27: instances share nothing. What an action does at an instance depends on that instance alone, and no
other instance changes. -/
def Obligations.InstancesShareNothing : Prop :=
  ∀ (s u t : State) (k : Nat) (a : Action) (rest rest' : List Event),
    s.script = ⟨k, a⟩ :: rest → u.script = ⟨k, a⟩ :: rest' → s.insts[k]? = u.insts[k]? → step s = .next t →
      (∀ j, j ≠ k → t.insts[j]? = s.insts[j]?) ∧
      ∃ v, step u = .next v ∧ v.insts[k]? = t.insts[k]? ∧
        v.seen.drop u.seen.length = t.seen.drop s.seen.length

/-- 10_state R25, R26: a working step moves the working state of the selected instance one step on, as the unit that the
latched request selects does, and nothing else of any instance; nothing that a host can read changes. The working step
as an event of its own is the model's choice (log 2, log 4). -/
def Obligations.WorkingStepsAreNotObservable : Prop :=
  (∀ (s s' : State) (c : Inst) (r : Request), s.nextEvent = some (.work, s') → s'.selected = some c →
    c.phase = .busy → c.req = some r →
      step s = .next { s' with insts := s'.insts.set s'.sel { c with work := workStep r c.work } }) ∧
  ∀ (s s' t : State), s.nextEvent = some (.work, s') → step s = .next t →
    t.seen = s.seen ∧ ∀ k : Nat, (t.insts[k]?.map fun c : Inst => (c.phase, c.req, c.rsp)) =
      s.insts[k]?.map fun c : Inst => (c.phase, c.req, c.rsp)

/-- 20_memory R48: a request issued, completed, read and acknowledged gives its host its own response, and leaves the
instance as reset does. -/
def Obligations.TransactionGivesTheRequestsOwnResponse : Prop :=
  ∀ (s : State) (k : Nat) (r : Request) (rest : List Event) (c : Inst),
    s.script = ⟨k, .issue r⟩ :: ⟨k, .complete⟩ :: ⟨k, .readRsp⟩ :: ⟨k, .ack⟩ :: rest →
      s.insts[k]? = some c → c.phase = .idle → r.admitted = true →
        ∃ t : State, Host.Core.run core 4 s = .next t ∧ t.script = rest ∧
          t.seen = s.seen ++ [⟨k, .issued r⟩, ⟨k, .response (coreResponse r)⟩, ⟨k, .acked⟩] ∧
          t.insts = s.insts.set k ⟨.idle, none, none, .empty⟩

/-- 70_reset R162, R163 ("derived: from rule R162" and the operation rules): with nothing left to happen, every BUSY
instance is completed, each with its own response, in at most as many steps as there are instances. That COMPLETE then
follows at once, the first BUSY instance first, is the model's choice (log 4). -/
def Obligations.EveryBusyInstanceCompletes : Prop :=
  ∀ s : State, s.Inv → s.script = [] → ∃ (m : Nat) (t : State), m ≤ s.insts.length ∧ Host.Core.run core m s = .next t ∧
    t.seen = s.seen ∧ t.script = [] ∧ ∀ (k : Nat) (c : Inst), s.insts[k]? = some c → t.insts[k]? =
      some (if c.phase = .busy then ⟨.done, c.req, c.req.map coreResponse, .empty⟩ else c)

/-- 70_reset R164: where steps have brought a run to its end at an instance, no request is outstanding there, and the
observation is every request of the run, in order, each with its own response. What ends a run is read with log 13. -/
def Obligations.EndedRunObservesOwnResponses : Prop :=
  ∀ (s t : State) (k m : Nat), s.Inv → s.SeenInv → Host.Core.run core m s = .next t → t.ended k →
    (t.follow k).cur = none ∧ t.observation k = (t.follow k).issued.map fun r => (r, coreResponse r)

/-! ### What every step keeps -/

/-- 10_state R21 to R23, 20_memory R48: PHASE, REQ, RSP and the working state fit together after every step, and no
instance is lost or made. -/
def Obligations.StepKeepsInstancesConsistent : Prop :=
  ∀ s t : State, s.Inv → step s = .next t → t.Inv

/-- 20_memory R48, 70_reset R164: what hosts have seen stays in agreement with the instances after every step. -/
def Obligations.StepKeepsWhatWasSeenConsistent : Prop :=
  ∀ s t : State, s.Inv → s.SeenInv → step s = .next t → t.SeenInv
end

