-- ==== Sys2Proof/Laws/Assembler.lean ====
section
/-! SUPPORT. The reader of strings, one symbol at a time, and the two hexadecimal digits of a byte (30_encoding R71). -/

namespace Sys2Proof.Machine

theorem scanString_quote (rest : List Char) : scanString ('"' :: rest) .plain = some ([], rest) := by
  simp [scanString]

theorem scanString_escapedQuote (rest : List Char) :
    scanString ('\\' :: '"' :: rest) .plain = consSym 0x22#8 (scanString rest .plain) := by
  simp [scanString]

theorem scanString_escapedBackslash (rest : List Char) :
    scanString ('\\' :: '\\' :: rest) .plain = consSym 0x5C#8 (scanString rest .plain) := by
  simp [scanString]

theorem scanString_escapedByte {a b : Char} {y : Byte} (h : hexByte a b = some y) (rest : List Char) :
    scanString ('\\' :: 'x' :: a :: b :: rest) .plain = consSym y (scanString rest .plain) := by
  simp [scanString, h]

theorem scanString_plain {c : Char} (h1 : c ≠ '"') (h2 : c ≠ '\\') (h3 : c.toNat < 256) (rest : List Char) :
    scanString (c :: rest) .plain = consSym (BitVec.ofNat 8 c.toNat) (scanString rest .plain) := by
  simp [scanString, h1, h2, h3]

theorem hexValue_hexDigit (n : Fin 16) : hexValue (hexDigit n.val) = some n.val := by
  revert n
  decide

/-- The digits of a byte read back. -/
theorem hexByte_hexPair (b : Byte) : hexByte (hexDigit (b.toNat / 16)) (hexDigit (b.toNat % 16)) = some b := by
  have h1 := hexValue_hexDigit ⟨b.toNat / 16, by have := b.isLt; omega⟩
  have h2 := hexValue_hexDigit ⟨b.toNat % 16, by omega⟩
  simp only at h1 h2
  rw [hexByte, h1, h2]
  simp only [Option.some.injEq, ← BitVec.toNat_inj, BitVec.toNat_ofNat]
  have := b.isLt
  omega

end Sys2Proof.Machine
end

