-- ==== Sys2Proof/Laws/Codec.lean ====
section
/-! SUPPORT. The decoder by the number of the command byte, and its fields as numbers. -/

namespace Sys2Proof

theorem opcField_toNat (op : Byte) : (opcField op).toNat = op.toNat % 8 := by
  simp [opcField]

theorem rsvField_eq_zero (op : Byte) : rsvField op = 0#5 ↔ op.toNat < 8 := by
  rw [← BitVec.toNat_inj]
  simp only [rsvField, BitVec.extractLsb'_toNat, BitVec.toNat_ofNat, Nat.shiftRight_eq_div_pow]
  have := op.isLt
  omega

/-- The decoder, byte by byte (30_encoding R57 to R59). -/
theorem decode_eq (r : Request) :
    decode r =
      if r.op.toNat = 0 then .instr (.crc r.data r.gen)
      else if r.op.toNat = 1 then .instr (.csum r.data r.gen)
      else if r.op.toNat = 2 then .instr (.par r.data r.gen)
      else if r.op.toNat = 3 then .instr (.ham74 r.data r.gen)
      else if r.op.toNat = 4 then .instr (.luhn r.data r.gen)
      else if r.op.toNat < 8 then .illegal .reservedCode
      else .illegal .reservedBits := by
  unfold decode
  rw [if_congr (rsvField_eq_zero r.op) rfl rfl, opcField_toNat]
  generalize r.op.toNat = n
  by_cases h : n < 8
  · rw [if_pos h, Nat.mod_eq_of_lt h]
    interval_cases n <;> rfl
  · rw [if_neg h]
    repeat rw [if_neg (by omega)]

end Sys2Proof
end

