-- ==== Sys2Proof/Laws/Operands.lean ====
section
/-! SUPPORT. The symbol classes in the spec's words, and the lengths of the parts results are made of. -/

namespace Sys2Proof.Machine

theorem isBit_iff (c : Sym) : isBit c = true ↔ c = 0x30#8 ∨ c = 0x31#8 := by
  simp [isBit]

theorem isDigit_iff (c : Sym) : isDigit c = true ↔ 0x30 ≤ c.toNat ∧ c.toNat ≤ 0x39 := by
  simp [isDigit, BitVec.le_def]

theorem isBitString_iff (s : List Sym) : isBitString s = true ↔ BitString s := by
  simp [isBitString, BitString, isBit_iff]

theorem isDigitString_iff (s : List Sym) : isDigitString s = true ↔ DigitString s := by
  simp [isDigitString, DigitString, isDigit_iff]

theorem validGenerator_iff (gen : List Sym) : validGenerator gen = true ↔ 2 ≤ gen.length ∧ BitString gen := by
  simp [validGenerator, isBitString_iff]

@[simp] theorem bitsOf_length (s : List Sym) : (bitsOf s).length = s.length := by simp [bitsOf]

@[simp] theorem render_length (bs : List Bit) : (render bs).length = bs.length := by simp [render]

@[simp] theorem bits8_length (v : Nat) : (bits8 v).length = 8 := by simp [bits8]

@[simp] theorem zeros_length (k : Nat) : (zeros k).length = k := by simp [zeros]

@[simp] theorem xorInto_length (bs ws : List Bit) : (xorInto bs ws).length = bs.length := by
  induction bs generalizing ws with
  | nil => cases ws <;> rfl
  | cons b bs ih => cases ws <;> simp [xorInto, ih]

@[simp] theorem xorWindow_length (B : List Bit) (i : Nat) (G : List Bit) : (xorWindow B i G).length = B.length := by
  simp [xorWindow]
  omega

@[simp] theorem divStep_length (G B : List Bit) (i : Nat) : (divStep G B i).length = B.length := by
  unfold divStep
  split <;> simp

/-- XOR into the front of a buffer, position by position. -/
theorem xorInto_get (bs ws : List Bit) (p : Nat) :
    (xorInto bs ws)[p]? = if p < ws.length then bs[p]?.map (· ^^ (ws[p]?.getD false)) else bs[p]? := by
  induction bs generalizing ws p with
  | nil => cases ws <;> simp [xorInto]
  | cons b bs ih =>
    cases ws with
    | nil => simp [xorInto]
    | cons w ws => cases p <;> simp [xorInto, ih]

/-- XOR of a window, position by position (40_crc R84). -/
theorem xorWindow_get (B : List Bit) (i : Nat) (G : List Bit) (p : Nat) (hi : i ≤ B.length) :
    (xorWindow B i G)[p]? =
      if i ≤ p ∧ p < i + G.length then B[p]?.map (· ^^ (G[p - i]?.getD false)) else B[p]? := by
  unfold xorWindow
  rw [List.getElem?_append]
  simp only [List.length_take, Nat.min_eq_left hi]
  by_cases h : p < i
  · simp [h]
  · rw [if_neg h, xorInto_get]
    simp only [List.getElem?_drop]
    have : i + (p - i) = p := by omega
    rw [this]
    by_cases h2 : p - i < G.length
    · rw [if_pos h2, if_pos (by omega)]
    · rw [if_neg h2, if_neg (by omega)]

/-- One position of the scan, position by position (40_crc R84). -/
theorem divStep_get (G B : List Bit) (i p : Nat) :
    (divStep G B i)[p]? =
      if B[i]? = some true ∧ i ≤ p ∧ p < i + G.length then B[p]?.map (· ^^ (G[p - i]?.getD false)) else B[p]? := by
  unfold divStep
  by_cases h : B[i]? = some true
  · have := (List.getElem?_eq_some_iff.1 h).1
    simp only [h, Option.getD_some, if_true, true_and]
    exact xorWindow_get B i G p (by omega)
  · rw [if_neg, if_neg (by tauto)]
    cases hh : B[i]? with
    | none => simp
    | some b => cases b <;> simp_all

/-- The scan taken one position further. -/
theorem divide_succ (G B : List Bit) (n : Nat) : divide G B (n + 1) = divStep G (divide G B n) n := by
  simp [divide, List.range_succ]

@[simp] theorem divide_zero (G B : List Bit) : divide G B 0 = B := rfl

/-- The buffer keeps its size (40_crc R85). -/
@[simp] theorem divide_length (G B : List Bit) (n : Nat) : (divide G B n).length = B.length := by
  induction n with
  | zero => rfl
  | succ n ih => rw [divide_succ, divStep_length, ih]

/-- A symbol of a bit string as a bit. -/
theorem bitOf_eq {c : Sym} (h : c = 0x30#8 ∨ c = 0x31#8) : bitOf c = decide (c = 0x31#8) := by
  rcases h with rfl | rfl <;> decide

/-- The bits of a bit string. -/
theorem bitsOf_eq {s : List Sym} (h : BitString s) : bitsOf s = s.map fun c => decide (c = 0x31#8) :=
  List.map_congr_left fun c hc => bitOf_eq (h c hc)

end Sys2Proof.Machine
end

