-- ==== Sys2Proof/Laws/State.lean ====
section
/-! SUPPORT. One lemma per field per update of a state and of an instance, and what reading an instance gives after
each update. -/

namespace Sys2Proof.Machine

/-! ### Updates of an instance -/

@[simp] theorem Inst.answer_phase (x : Response) (c : Inst) : (c.answer x).phase = .done := rfl
@[simp] theorem Inst.answer_req (x : Response) (c : Inst) : (c.answer x).req = c.req := rfl
@[simp] theorem Inst.answer_rsp (x : Response) (c : Inst) : (c.answer x).rsp = some x := rfl
@[simp] theorem Inst.answer_work (x : Response) (c : Inst) : (c.answer x).work = .empty := rfl
@[simp] theorem Inst.reset_phase : Inst.reset.phase = .idle := rfl
@[simp] theorem Inst.reset_req : Inst.reset.req = none := rfl
@[simp] theorem Inst.reset_rsp : Inst.reset.rsp = none := rfl
@[simp] theorem Inst.reset_work : Inst.reset.work = .empty := rfl

/-! ### Updates of the platform -/

@[simp] theorem State.setSel_insts (c : Inst) (s : State) : (s.setSel c).insts = s.insts.set s.sel c := rfl
@[simp] theorem State.setSel_sel (c : Inst) (s : State) : (s.setSel c).sel = s.sel := rfl
@[simp] theorem State.setSel_script (c : Inst) (s : State) : (s.setSel c).script = s.script := rfl
@[simp] theorem State.setSel_seen (c : Inst) (s : State) : (s.setSel c).seen = s.seen := rfl
@[simp] theorem State.saw_insts (a : Answer) (s : State) : (s.saw a).insts = s.insts := rfl
@[simp] theorem State.saw_sel (a : Answer) (s : State) : (s.saw a).sel = s.sel := rfl
@[simp] theorem State.saw_script (a : Answer) (s : State) : (s.saw a).script = s.script := rfl
@[simp] theorem State.saw_seen (a : Answer) (s : State) : (s.saw a).seen = s.seen ++ [⟨s.sel, a⟩] := rfl
@[simp] theorem State.answered_insts (x : Response) (s : State) :
    (s.answered x).insts = s.insts.modify s.sel (Inst.answer x) := rfl
@[simp] theorem State.answered_sel (x : Response) (s : State) : (s.answered x).sel = s.sel := rfl
@[simp] theorem State.answered_script (x : Response) (s : State) : (s.answered x).script = s.script := rfl
@[simp] theorem State.answered_seen (x : Response) (s : State) : (s.answered x).seen = s.seen := rfl
@[simp] theorem State.placeRequest_insts (r : Request) (s : State) :
    (s.placeRequest r).insts = ⟨.busy, some r, none, .empty⟩ :: s.insts.tail := rfl
@[simp] theorem State.placeRequest_sel (r : Request) (s : State) : (s.placeRequest r).sel = s.sel := rfl
@[simp] theorem State.placeRequest_script (r : Request) (s : State) :
    (s.placeRequest r).script = ⟨0, .complete⟩ :: s.script := rfl
@[simp] theorem State.placeRequest_seen (r : Request) (s : State) : (s.placeRequest r).seen = s.seen := rfl
@[simp] theorem State.reset_sel : State.reset.sel = 0 := rfl
@[simp] theorem State.reset_script : State.reset.script = [] := rfl
@[simp] theorem State.reset_seen : State.reset.seen = [] := rfl

theorem State.reset_insts : State.reset.insts = List.replicate Config.numInstances Inst.reset := by
  simp [State.reset, Config.numInstances, List.replicate_succ]

/-! ### Reading an instance after an update -/

theorem State.selected_eq (s : State) : s.selected = s.insts[s.sel]? := rfl

@[simp] theorem State.saw_selected (a : Answer) (s : State) : (s.saw a).selected = s.selected := rfl

/-- Setting the selected instance: it reads back. -/
theorem State.setSel_same (c : Inst) {s : State} {d : Inst} (h : s.selected = some d) :
    (s.setSel c).insts[s.sel]? = some c := by
  have := (List.getElem?_eq_some_iff.1 h).1
  simp [this]

/-- Setting the selected instance leaves every other one. -/
theorem State.setSel_other (c : Inst) (s : State) {k : Nat} (h : k ≠ s.sel) :
    (s.setSel c).insts[k]? = s.insts[k]? := by
  simp [Ne.symm h]

/-- Answering is setting the selected instance to its answered form. -/
theorem State.answered_eq (x : Response) {s : State} {c : Inst} (h : s.selected = some c) :
    s.answered x = s.setSel (c.answer x) := by
  obtain ⟨hlt, rfl⟩ := List.getElem?_eq_some_iff.1 h
  simp only [State.answered, State.setSel, List.modify_eq_set_getElem?]
  rw [List.getElem?_eq_getElem hlt]
  rfl

end Sys2Proof.Machine
end

