-- ==== Sys2Proof/Laws/Ops.lean ====
section
/-! SUPPORT. What each shared operation can do, said once: if it answers a next state, what held before and what holds
after. -/

namespace Sys2Proof.Machine

theorem mapNext_next {α β : Type} {f : α → β} {o : Host.Outcome α Fault Refusal} {b : β} :
    mapNext f o = .next b ↔ ∃ a, o = .next a ∧ f a = b := by
  cases o <;> simp [mapNext]

theorem withSel_some {α : Type} {s : State} {f : Inst → Host.Outcome α Fault Refusal} {c : Inst}
    (h : s.selected = some c) : withSel s f = f c := by
  simp [withSel, h]

theorem withSel_next {α : Type} {s : State} {f : Inst → Host.Outcome α Fault Refusal} {t : α} :
    withSel s f = .next t ↔ ∃ c, s.selected = some c ∧ f c = .next t := by
  unfold withSel
  split <;> simp_all

/-! ### The actions on one instance -/

theorem Inst.doIssue_next {r : Request} {c c' : Inst} :
    c.doIssue r = .next c' ↔
      c.phase = .idle ∧ r.admitted = true ∧ c' = { c with phase := .busy, req := some r } := by
  by_cases h1 : c.phase = .idle <;> by_cases h2 : r.admitted = true <;> simp [Inst.doIssue, h1, h2]
  exact eq_comm

theorem Inst.readRsp_next {c : Inst} {a : Answer} :
    c.readRsp = .next a ↔ c.phase = .done ∧ ∃ x, c.rsp = some x ∧ a = .response x := by
  unfold Inst.readRsp
  split
  · simp_all [eq_comm]
  · rename_i h
    constructor
    · simp
    · rintro ⟨h1, x, h2, -⟩
      exact absurd h2 (h x h1)

theorem Inst.read_next {c : Inst} {a : Answer} :
    c.read = .next a ↔
      (c.phase = .done ∧ ∃ x, c.rsp = some x ∧ a = .response x) ∨ (c.phase ≠ .done ∧ a = .phase c.phase) := by
  unfold Inst.read
  split
  · rw [Inst.readRsp_next]
    simp_all
  · simp_all [eq_comm]

theorem Inst.doAck_next {c c' : Inst} :
    c.doAck = .next c' ↔ c.phase = .done ∧ c' = { c with phase := .idle, req := none, rsp := none } := by
  unfold Inst.doAck
  split <;> simp_all [eq_comm]

/-! ### The actions on the platform -/

theorem issueSel_next {r : Request} {s t : State} :
    issueSel r s = .next t ↔
      ∃ c, s.selected = some c ∧ c.phase = .idle ∧ r.admitted = true ∧
        t = (s.setSel { c with phase := .busy, req := some r }).saw (.issued r) := by
  simp only [issueSel, withSel_next, mapNext_next, Inst.doIssue_next]
  constructor
  · rintro ⟨c, h, c', ⟨h1, h2, rfl⟩, rfl⟩
    exact ⟨c, h, h1, h2, rfl⟩
  · rintro ⟨c, h, h1, h2, rfl⟩
    exact ⟨c, h, _, ⟨h1, h2, rfl⟩, rfl⟩

theorem readSel_next {s t : State} :
    readSel s = .next t ↔ ∃ c a, s.selected = some c ∧ c.read = .next a ∧ t = s.saw a := by
  simp only [readSel, withSel_next, mapNext_next]
  constructor
  · rintro ⟨c, h, a, h1, rfl⟩
    exact ⟨c, a, h, h1, rfl⟩
  · rintro ⟨c, a, h, h1, rfl⟩
    exact ⟨c, h, a, h1, rfl⟩

theorem readRspSel_next {s t : State} :
    readRspSel s = .next t ↔
      ∃ c x, s.selected = some c ∧ c.phase = .done ∧ c.rsp = some x ∧ t = s.saw (.response x) := by
  simp only [readRspSel, withSel_next, mapNext_next, Inst.readRsp_next]
  constructor
  · rintro ⟨c, h, a, ⟨h1, x, h2, rfl⟩, rfl⟩
    exact ⟨c, x, h, h1, h2, rfl⟩
  · rintro ⟨c, x, h, h1, h2, rfl⟩
    exact ⟨c, h, _, ⟨h1, x, h2, rfl⟩, rfl⟩

theorem ackSel_next {s t : State} :
    ackSel s = .next t ↔
      ∃ c, s.selected = some c ∧ c.phase = .done ∧
        t = (s.setSel { c with phase := .idle, req := none, rsp := none }).saw .acked := by
  simp only [ackSel, withSel_next, mapNext_next, Inst.doAck_next]
  constructor
  · rintro ⟨c, h, c', ⟨h1, rfl⟩, rfl⟩
    exact ⟨c, h, h1, rfl⟩
  · rintro ⟨c, h, h1, rfl⟩
    exact ⟨c, h, _, ⟨h1, rfl⟩, rfl⟩

theorem resetSel_next {s t : State} :
    resetSel s = .next t ↔ ∃ c, s.selected = some c ∧ t = (s.setSel Inst.reset).saw .reset := by
  simp only [resetSel, withSel_next, Host.Outcome.next.injEq]
  exact exists_congr fun c => and_congr_right fun _ => eq_comm

theorem workOne_next {s t : State} :
    workOne s = .next t ↔
      ∃ c r, s.selected = some c ∧ c.phase = .busy ∧ c.req = some r ∧
        t = s.setSel { c with work := workStep r c.work } := by
  simp only [workOne, withSel_next]
  constructor
  · rintro ⟨c, h, h1⟩
    split at h1
    · split at h1
      · rename_i r hr
        exact ⟨c, r, h, ‹_›, hr, (Host.Outcome.next.inj h1).symm⟩
      · simp at h1
    · simp at h1
  · rintro ⟨c, r, h, h1, h2, rfl⟩
    exact ⟨c, h, by simp [h1, h2]⟩

/-! ### COMPLETE -/

theorem answerWith_next {x : Response} {s t : State} :
    answerWith x s = .next t ↔ ∃ c, s.selected = some c ∧ c.phase = .busy ∧ t = s.setSel (c.answer x) := by
  simp only [answerWith, withSel_next]
  constructor
  · rintro ⟨c, h, h1⟩
    split at h1
    · exact ⟨c, h, ‹_›, (Host.Outcome.next.inj h1).symm⟩
    · simp at h1
  · rintro ⟨c, h, h1, rfl⟩
    exact ⟨c, h, by simp [h1]⟩

/-- In BUSY, COMPLETE answers. -/
theorem answerWith_busy {x : Response} {s : State} (h : s.busy) : answerWith x s = .next (s.answered x) := by
  obtain ⟨c, hc, hb⟩ := h
  rw [answerWith_next]
  exact ⟨c, hc, hb, State.answered_eq x hc⟩

/-- Outside BUSY, COMPLETE has no move. -/
theorem answerWith_not_busy {x : Response} {s : State} (h : ¬ s.busy) (t : State) : answerWith x s ≠ .next t := by
  rw [ne_eq, answerWith_next]
  rintro ⟨c, hc, hb, -⟩
  exact h ⟨c, hc, hb⟩

theorem Inst.fetch_busy {c : Inst} {r : Request} (hb : c.phase = .busy) (hr : c.req = some r) :
    c.fetch = match decode r with
      | .instr i => .run i
      | .illegal why => .illegal why := by
  cases hd : decode r <;> simp [Inst.fetch, hb, hr, hd]

theorem State.latched.busy {s : State} {r : Request} (h : s.latched r) : s.busy := by
  obtain ⟨c, hc, hb, -⟩ := h
  exact ⟨c, hc, hb⟩

/-- Every operation takes effect through the one COMPLETE, with its own response. -/
theorem exec_eq (i : Instr) (s : State) : exec i s = answerWith (respond i) s := by
  cases i <;> rfl

theorem exec_busy (i : Instr) {s : State} (h : s.busy) : exec i s = .next (s.answered (respond i)) := by
  rw [exec_eq, answerWith_busy h]

theorem exec_next {i : Instr} {s t : State} :
    exec i s = .next t ↔ ∃ c, s.selected = some c ∧ c.phase = .busy ∧ t = s.setSel (c.answer (respond i)) := by
  rw [exec_eq, answerWith_next]

end Sys2Proof.Machine
end

