-- ==== Sys2Proof/Laws/PerInstr.lean ====
section
/-! SUPPORT. Per instruction, as syntax: the encoder sets no reserved bit, uses one of the five codes, keeps both
operands, and admits exactly the well-formed instructions (10_state R29, 30_encoding R56, R57). -/

namespace Sys2Proof.Laws

/-- What the encoder makes of one instruction. -/
def EncodedRecord.Statement (i : Instr) : Prop :=
  rsvField (encode i).op = 0#5 ∧ (opcField (encode i).op).toNat ≤ 4 ∧ (encode i).data = i.data ∧
    (encode i).gen = i.gen ∧ (encode i).admitted = i.wellFormed

theorem EncodedRecord.crc (data gen : List Sym) : EncodedRecord.Statement (.crc data gen) :=
  ⟨(by decide : rsvField 0x00#8 = 0#5), (by decide : (opcField 0x00#8).toNat ≤ 4), rfl, rfl, rfl⟩

theorem EncodedRecord.csum (data gen : List Sym) : EncodedRecord.Statement (.csum data gen) :=
  ⟨(by decide : rsvField 0x01#8 = 0#5), (by decide : (opcField 0x01#8).toNat ≤ 4), rfl, rfl, rfl⟩

theorem EncodedRecord.par (data gen : List Sym) : EncodedRecord.Statement (.par data gen) :=
  ⟨(by decide : rsvField 0x02#8 = 0#5), (by decide : (opcField 0x02#8).toNat ≤ 4), rfl, rfl, rfl⟩

theorem EncodedRecord.ham74 (data gen : List Sym) : EncodedRecord.Statement (.ham74 data gen) :=
  ⟨(by decide : rsvField 0x03#8 = 0#5), (by decide : (opcField 0x03#8).toNat ≤ 4), rfl, rfl, rfl⟩

theorem EncodedRecord.luhn (data gen : List Sym) : EncodedRecord.Statement (.luhn data gen) :=
  ⟨(by decide : rsvField 0x04#8 = 0#5), (by decide : (opcField 0x04#8).toNat ≤ 4), rfl, rfl, rfl⟩

end Sys2Proof.Laws
end

