-- ==== Sys2Proof/Laws/Respond.lean ====
section
/-! SUPPORT. When each operation raises which status, and what it returns otherwise; `CORE(REQ)` by the request's byte. -/

namespace Sys2Proof.Machine

theorem isBitString_false {s : List Sym} (h : ¬ BitString s) : isBitString s = false :=
  Bool.eq_false_iff.2 (mt (isBitString_iff s).1 h)

theorem isDigitString_false {s : List Sym} (h : ¬ DigitString s) : isDigitString s = false :=
  Bool.eq_false_iff.2 (mt (isDigitString_iff s).1 h)

theorem crcResponse_bad_generator (data : List Sym) {gen : List Sym} (h : gen.length < 2 ∨ ¬ BitString gen) :
    crcResponse data gen = raise .invalidGenerator := by
  have : validGenerator gen = false := by
    rw [Bool.eq_false_iff, ne_eq, validGenerator_iff]
    rintro ⟨h1, h2⟩
    rcases h with h | h
    · omega
    · exact h h2
  simp [crcResponse, this]

theorem crcResponse_bad_data {data gen : List Sym} (hl : 2 ≤ gen.length) (hg : BitString gen) (h : ¬ BitString data) :
    crcResponse data gen = raise .invalidInput := by
  simp [crcResponse, (validGenerator_iff gen).2 ⟨hl, hg⟩, isBitString_false h]

theorem crcResponse_ok {data gen : List Sym} (hl : 2 ≤ gen.length) (hg : BitString gen) (h : BitString data) :
    crcResponse data gen = okWith (crcRemainder (bitsOf data) (bitsOf gen)) := by
  simp [crcResponse, (validGenerator_iff gen).2 ⟨hl, hg⟩, (isBitString_iff data).2 h]

theorem csumResponse_bad_data {data : List Sym} (gen : List Sym) (h : ¬ BitString data) :
    csumResponse data gen = raise .invalidInput := by
  simp [csumResponse, isBitString_false h]

theorem csumResponse_ok {data : List Sym} (gen : List Sym) (h : BitString data) :
    csumResponse data gen = okWith (bits8 (groupSum (bitsOf data) % 256)) := by
  simp [csumResponse, (isBitString_iff data).2 h]

theorem parResponse_bad_data {data : List Sym} (gen : List Sym) (h : ¬ BitString data) :
    parResponse data gen = raise .invalidInput := by
  simp [parResponse, isBitString_false h]

theorem parResponse_ok {data : List Sym} (gen : List Sym) (h : BitString data) :
    parResponse data gen = okWith [parityBit (bitsOf data)] := by
  simp [parResponse, (isBitString_iff data).2 h]

theorem ham74Response_bad_length {data : List Sym} (gen : List Sym) (h : data.length ≠ 4) :
    ham74Response data gen = raise .invalidLength := by
  unfold ham74Response
  split
  · simp at h
  · rfl

theorem ham74Response_bad_data {data : List Sym} (gen : List Sym) (hl : data.length = 4) (h : ¬ BitString data) :
    ham74Response data gen = raise .invalidInput := by
  obtain ⟨c0, c1, c2, c3, rfl⟩ := List.length_eq_four.1 hl
  simp only [ham74Response, isBitString_false h, Bool.not_false, if_true]

theorem ham74Response_ok {c0 c1 c2 c3 : Sym} (gen : List Sym) (h : BitString [c0, c1, c2, c3]) :
    ham74Response [c0, c1, c2, c3] gen = okWith (hammingWord (bitOf c0) (bitOf c1) (bitOf c2) (bitOf c3)) := by
  simp only [ham74Response, (isBitString_iff _).2 h, Bool.not_true, Bool.false_eq_true, if_false]

theorem luhnResponse_bad_data {data : List Sym} (gen : List Sym) (h : ¬ DigitString data) :
    luhnResponse data gen = raise .invalidInput := by
  simp [luhnResponse, isDigitString_false h]

theorem luhnResponse_ok {data : List Sym} (gen : List Sym) (h : DigitString data) :
    luhnResponse data gen = okWith [luhnSum data % 10 == 0] := by
  simp [luhnResponse, (isDigitString_iff data).2 h]

/-- `CORE(REQ)` of an illegal byte (60 R141, priority 1). -/
theorem coreResponse_illegal {r : Request} (h : 4 < r.op.toNat) : coreResponse r = raise .illegalOp := by
  unfold coreResponse
  rw [decode_eq]
  repeat rw [if_neg (by omega)]
  split <;> rename_i h'
  · split_ifs at h'
  · rfl

theorem coreResponse_instr {r : Request} {i : Instr} (h : decode r = .instr i) : coreResponse r = respond i := by
  simp [coreResponse, h]

end Sys2Proof.Machine
end

