-- ==== Sys2Proof/Laws/Step.lean ====
section
/-! SUPPORT. What one step can do. -/

namespace Sys2Proof.Machine

theorem nextEvent_script {s : State} {e : Event} {rest : List Event} (h : s.script = e :: rest) :
    s.nextEvent = some (e.act, { s with script := rest, sel := e.inst }) := by
  simp [State.nextEvent, h]

theorem nextEvent_empty {s : State} (h : s.script = []) :
    s.nextEvent = s.firstBusy.map fun k => (.complete, { s with sel := k }) := by
  simp [State.nextEvent, h]

/-- Choosing what happens next touches neither the instances nor what was seen. -/
theorem nextEvent_keeps {s s' : State} {a : Action} (h : s.nextEvent = some (a, s')) :
    s'.insts = s.insts ∧ s'.seen = s.seen := by
  unfold State.nextEvent at h
  split at h
  · simp only [Option.some.injEq, Prod.mk.injEq] at h
    obtain ⟨-, rfl⟩ := h
    exact ⟨rfl, rfl⟩
  · simp only [Option.map_eq_some_iff, Prod.mk.injEq] at h
    obtain ⟨k, -, -, rfl⟩ := h
    exact ⟨rfl, rfl⟩

/-- COMPLETE of a latched request answers `CORE(REQ)`. -/
theorem completeSel_latched {s : State} {r : Request} (h : s.latched r) :
    completeSel s = .next (s.answered (coreResponse r)) := by
  have hb := h.busy
  obtain ⟨c, hc, hp, hr⟩ := h
  have hf : fetch s = c.fetch := by simp [fetch, hc]
  rw [completeSel, hf, Inst.fetch_busy hp hr, coreResponse]
  cases hd : decode r with
  | instr i => exact exec_busy i hb
  | illegal why => exact answerWith_busy hb

theorem completeSel_next {s t : State} :
    completeSel s = .next t ↔ ∃ r, s.latched r ∧ t = s.answered (coreResponse r) := by
  constructor
  · intro h
    cases hs : s.selected with
    | none => simp [completeSel, fetch, hs] at h
    | some c =>
      by_cases hp : c.phase = .busy
      · cases hr : c.req with
        | none => simp [completeSel, fetch, hs, Inst.fetch, hp, hr] at h
        | some r =>
          have hl : s.latched r := ⟨c, hs, hp, hr⟩
          rw [completeSel_latched hl] at h
          exact ⟨r, hl, (Host.Outcome.next.inj h).symm⟩
      · simp [completeSel, fetch, hs, Inst.fetch, hp] at h
  · rintro ⟨r, h, rfl⟩
    exact completeSel_latched h

/-- All that a step can do: wait, or take the next event with one of the seven moves. -/
theorem step_cases {s t : State} (h : step s = .next t) :
    (s.nextEvent = none ∧ t = s) ∨
      ∃ a s', s.nextEvent = some (a, s') ∧ perform a s' = .next t := by
  unfold step at h
  split at h
  · exact .inr ⟨_, _, ‹_›, h⟩
  · exact .inl ⟨‹_›, (Host.Outcome.next.inj h).symm⟩

theorem step_some {s s' : State} {a : Action} (h : s.nextEvent = some (a, s')) : step s = perform a s' := by
  simp [step, h]

/-- The seven moves: the selected instance before, and the state after. -/
theorem perform_cases {a : Action} {s t : State} (h : perform a s = .next t) :
    ∃ c, s.selected = some c ∧
      ((∃ r, a = .issue r ∧ c.phase = .idle ∧ r.admitted = true ∧
          t = (s.setSel { c with phase := .busy, req := some r }).saw (.issued r)) ∨
        (a = .read ∧ ∃ x, c.read = .next x ∧ t = s.saw x) ∨
        (a = .readRsp ∧ c.phase = .done ∧ ∃ x, c.rsp = some x ∧ t = s.saw (.response x)) ∨
        (a = .ack ∧ c.phase = .done ∧
          t = (s.setSel { c with phase := .idle, req := none, rsp := none }).saw .acked) ∨
        (a = .work ∧ c.phase = .busy ∧ ∃ r, c.req = some r ∧ t = s.setSel { c with work := workStep r c.work }) ∨
        (a = .complete ∧ c.phase = .busy ∧ ∃ r, c.req = some r ∧ t = s.setSel (c.answer (coreResponse r))) ∨
        (a = .reset ∧ t = (s.setSel Inst.reset).saw .reset)) := by
  cases a with
  | issue r =>
    obtain ⟨c, hc, h1, h2, h3⟩ := issueSel_next.1 h
    exact ⟨c, hc, .inl ⟨r, rfl, h1, h2, h3⟩⟩
  | read =>
    obtain ⟨c, x, hc, h1, h2⟩ := readSel_next.1 h
    exact ⟨c, hc, .inr (.inl ⟨rfl, x, h1, h2⟩)⟩
  | readRsp =>
    obtain ⟨c, x, hc, h1, h2, h3⟩ := readRspSel_next.1 h
    exact ⟨c, hc, .inr (.inr (.inl ⟨rfl, h1, x, h2, h3⟩))⟩
  | ack =>
    obtain ⟨c, hc, h1, h2⟩ := ackSel_next.1 h
    exact ⟨c, hc, .inr (.inr (.inr (.inl ⟨rfl, h1, h2⟩)))⟩
  | work =>
    obtain ⟨c, r, hc, h1, h2, h3⟩ := workOne_next.1 h
    exact ⟨c, hc, .inr (.inr (.inr (.inr (.inl ⟨rfl, h1, r, h2, h3⟩))))⟩
  | complete =>
    obtain ⟨r, ⟨c, hc, h1, h2⟩, h3⟩ := completeSel_next.1 h
    rw [State.answered_eq _ hc] at h3
    exact ⟨c, hc, .inr (.inr (.inr (.inr (.inr (.inl ⟨rfl, h1, r, h2, h3⟩)))))⟩
  | reset =>
    obtain ⟨c, hc, h1⟩ := resetSel_next.1 h
    exact ⟨c, hc, .inr (.inr (.inr (.inr (.inr (.inr ⟨rfl, h1⟩)))))⟩

/-- A placed request is what the next step completes. -/
theorem step_placeRequest (r : Request) (s : State) :
    step (s.placeRequest r) = completeSel { s.placeRequest r with script := s.script, sel := 0 } := by
  rw [step_some (nextEvent_script (State.placeRequest_script r s))]
  rfl

end Sys2Proof.Machine
end

