-- ==== Sys2Proof/Laws/Safety.lean ====
section
/-! SUPPORT. How the two invariants meet the shared updates: setting an instance, and seeing each kind of answer. -/

namespace Sys2Proof.Machine

theorem Inst.reset_inv : Inst.reset.Inv := ⟨rfl, rfl, rfl⟩

/-- Setting an instance that fits together keeps the platform's invariant. -/
theorem State.Inv.setSel {s : State} (h : s.Inv) {c : Inst} (hc : c.Inv) : (s.setSel c).Inv := by
  refine ⟨by simpa using h.1, fun d hd => ?_⟩
  rcases List.mem_or_eq_of_mem_set hd with hm | rfl
  · exact h.2 d hm
  · exact hc

theorem State.Inv.selected {s : State} (h : s.Inv) {c : Inst} (hc : s.selected = some c) : c.Inv :=
  h.2 c (List.mem_of_getElem? hc)

/-- The invariant speaks of the instances only. -/
theorem State.inv_congr {s t : State} (h : t.insts = s.insts) : t.Inv ↔ s.Inv := by
  simp [State.Inv, h]

/-- Seeing something at the selected instance moves on what its host knows, and no other. -/
theorem State.follow_saw (s : State) (a : Answer) (k : Nat) :
    (s.saw a).follow k = if k = s.sel then (s.follow k).next a else s.follow k := by
  unfold State.follow State.seenAt
  by_cases h : k = s.sel
  · simp [h, List.filter_append]
  · simp [h, List.filter_append, Ne.symm h]

/-- What a host knows rests on what was seen only. -/
theorem State.follow_congr {s t : State} (h : t.seen = s.seen) (k : Nat) : t.follow k = s.follow k := by
  simp [State.follow, State.seenAt, h]

/-- What was seen goes on agreeing when the selected instance becomes `c` and only its own host learns anything. -/
theorem State.SeenInv.of_set {s t : State} {c : Inst} (h : s.SeenInv) (ht : t.insts = s.insts.set s.sel c)
    (ho : ∀ k, k ≠ s.sel → t.follow k = s.follow k) (hc : (t.follow s.sel).Agrees c) : t.SeenInv := by
  intro k d hd
  rw [ht, List.getElem?_set] at hd
  split at hd
  · rename_i hk
    subst hk
    split at hd
    · cases hd; exact hc
    · cases hd
  · rename_i hk
    rw [ho k (Ne.symm hk)]
    exact h k d hd

/-- ISSUE at an instance that holds no request. -/
theorem Follow.Agrees.issued {f : Follow} {c d : Inst} (h : f.Agrees c) (hc : c.req = none) {r : Request}
    (hd : d.req = some r) : (f.next (.issued r)).Agrees d := by
  obtain ⟨h1, -, h3, h4⟩ := h
  refine ⟨hd.symm, by simp [Follow.next], h3, fun hu => ?_⟩
  have := h4 hu
  rw [h1, hc] at this
  simp [Follow.next, this]

/-- A response read that is the one held. -/
theorem Follow.Agrees.response {f : Follow} {c : Inst} (h : f.Agrees c) {x : Response} (hx : c.rsp = some x) :
    (f.next (.response x)).Agrees c :=
  ⟨h.1, by simp [Follow.next, hx], h.2.2⟩

/-- ACK of a request whose own response is held. -/
theorem Follow.Agrees.acked {f : Follow} {c d : Inst} (h : f.Agrees c) {r : Request} (hr : c.req = some r)
    (hx : c.rsp = some (coreResponse r)) (hd : d.req = none) : (f.next .acked).Agrees d := by
  obtain ⟨h1, h2, h3, h4⟩ := h
  rw [hr] at h1
  cases hg : f.got with
  | none =>
    refine ⟨hd.symm, by simp [Follow.next], ?_, ?_⟩ <;> simp [Follow.next, Follow.pair, Follow.missed, h1, hg]
    simpa using h3
  | some x =>
    have := h2 x hg
    rw [hx] at this
    cases this
    refine ⟨hd.symm, by simp [Follow.next], ?_, ?_⟩ <;> simp [Follow.next, Follow.pair, Follow.missed, h1, hg]
    · rintro p q (h | ⟨rfl, rfl⟩)
      · exact h3 _ h
      · rfl
    · intro hu
      simpa [h1] using h4 hu

/-- Where a run begins, at an instance that holds nothing. -/
theorem Follow.start_agrees {c : Inst} (hr : c.req = none) : Follow.start.Agrees c :=
  ⟨hr.symm, by rintro x ⟨⟩, by rintro p ⟨⟩, fun _ => rfl⟩

end Sys2Proof.Machine
end

