-- ==== Sys2Proof/Tests/Slice0.lean ====
section
/-! SUPPORT. Tests: expected results are the worked examples and vectors of spec/95_test_vectors.md, named by their ids,
and words written out from 30_encoding R57. Then one witness for the hypotheses of each statement that has any. -/

namespace Sys2Proof.Machine

/-! ### Helpers -/

/-- The symbols of a text (30_encoding R61). -/
def syms (t : String) : List Sym := t.toList.map fun c => BitVec.ofNat 8 c.toNat

/-- The bits of a text of zeros and ones. -/
def bits (t : String) : List Bit := t.toList.map (· == '1')

/-- One instance, in BUSY with a request. -/
def busyInst (r : Request) : Inst := ⟨.busy, some r, none, .empty⟩

/-- One instance, in DONE with a request and a response. -/
def doneInst (r : Request) (x : Response) : Inst := ⟨.done, some r, some x, .empty⟩

/-- A platform of one instance with a script. -/
def one (c : Inst) (acts : List Action) : State := ⟨[c], 0, acts.map (Event.mk 0), []⟩

/-- A platform of one instance, BUSY with an instruction's request. -/
def busyState (i : Instr) : State := one (busyInst (encode i)) []

/-- The response that instance 0 holds after an outcome. -/
def rspAfter : Host.Outcome State Fault Refusal → Option Response
  | .next t => t.insts[0]?.bind Inst.rsp
  | _ => none

/-- The phase of instance 0 after an outcome. -/
def phaseAfter : Host.Outcome State Fault Refusal → Option Phase
  | .next t => t.insts[0]?.map Inst.phase
  | _ => none

/-- What was seen after an outcome. -/
def seenAfter : Host.Outcome State Fault Refusal → Option (List Answer)
  | .next t => some (t.seen.map Seen.ans)
  | _ => none

/-- The fault of an outcome. -/
def faultOf : Host.Outcome State Fault Refusal → Option Fault
  | .fault f => some f
  | _ => none

/-- `exec` on its own BUSY instance, as the response it leaves. -/
def run1 (i : Instr) : Option Response := rspAfter (exec i (busyState i))

/-! ### Words written out from the encoding (30_encoding R56, R57) -/

theorem test_decode_crc : decode ⟨0b00000000#8, syms "10", syms "11"⟩ = .instr (.crc (syms "10") (syms "11")) := by decide
theorem test_decode_csum : decode ⟨0b00000001#8, syms "10", []⟩ = .instr (.csum (syms "10") []) := by decide
theorem test_decode_par : decode ⟨0b00000010#8, syms "10", []⟩ = .instr (.par (syms "10") []) := by decide
theorem test_decode_ham74 : decode ⟨0b00000011#8, syms "1011", []⟩ = .instr (.ham74 (syms "1011") []) := by decide
theorem test_decode_luhn : decode ⟨0b00000100#8, syms "59", syms "x"⟩ = .instr (.luhn (syms "59") (syms "x")) := by decide
/-- V-ERR-1 to V-ERR-3. -/
theorem test_decode_reserved_codes :
    ([0x05#8, 0x06#8, 0x07#8].map fun b => decode ⟨b, [], []⟩) = List.replicate 3 (.illegal .reservedCode) := by decide
/-- V-ERR-4 to V-ERR-7: `0x09` would be CSUM if reserved bits were ignored. -/
theorem test_decode_reserved_bits :
    ([0x08#8, 0x09#8, 0x80#8, 0xFF#8].map fun b => decode ⟨b, [], []⟩) =
      List.replicate 4 (.illegal .reservedBits) := by decide
theorem test_table_words :
    ([0, 1, 2, 3, 4, 5].map (decodeTableWord 8)) =
      [some (.crc [] []), some (.csum [] []), some (.par [] []), some (.ham74 [] []), some (.luhn [] []), none] := by
  decide

/-! ### Ill-formed terms are refused (10_state R29) -/

theorem test_wellFormed_refuses_long_data :
    (Instr.par (List.replicate (Config.maxDataLen + 1) 0x30#8) []).wellFormed = false := by
  simp [Instr.wellFormed, dataFits, Instr.data]
theorem test_wellFormed_refuses_long_gen :
    (Instr.crc [] (List.replicate (Config.maxGenLen + 1) 0x30#8)).wellFormed = false := by
  simp [Instr.wellFormed, genFits, Instr.gen]
theorem test_admitted_refuses_long_data :
    (Request.mk 0xFF#8 (List.replicate (Config.maxDataLen + 1) 0x30#8) []).admitted = false := by
  simp [Request.admitted, dataFits]
theorem test_wellFormed_accepts : (Instr.crc (syms "1011") (syms "11")).wellFormed = true := by decide

/-! ### The operations (95_test_vectors, sections 1 to 6) -/

/-- V-CRC-2, the worked example of 40_crc R80. -/
theorem test_crc_worked_example :
    run1 (.crc (syms "1101011011") (syms "10011")) = some ⟨0x00#8, bits "1110"⟩ := by decide
/-- V-CRC-8: a generator whose first bit is 0. -/
theorem test_crc_leading_zero_generator : run1 (.crc (syms "1011") (syms "0011")) = some ⟨0x00#8, bits "000"⟩ := by decide
/-- V-CSUM-10: two whole groups and a short one, past 256. -/
theorem test_csum_short_group_wraps :
    run1 (.csum (syms "11111111111111110000001") []) = some ⟨0x00#8, bits "11111111"⟩ := by decide
/-- V-CSUM-14: the first symbol is the most significant, and GEN is ignored. -/
theorem test_csum_ignores_gen : run1 (.csum (syms "1010") (syms "zz")) = some ⟨0x00#8, bits "00001010"⟩ := by decide
/-- V-PAR-4. -/
theorem test_par_three_ones : run1 (.par (syms "1011") []) = some ⟨0x00#8, bits "1"⟩ := by decide
/-- V-PAR-9. -/
theorem test_par_digit_is_no_bit : run1 (.par (syms "1021") []) = some ⟨0x03#8, []⟩ := by decide
/-- V-HAM: `0001` and `1000` tell the four data bits and the three parity bits apart. -/
theorem test_ham74_words :
    run1 (.ham74 (syms "0001") []) = some ⟨0x00#8, bits "1101001"⟩ ∧
      run1 (.ham74 (syms "1000") []) = some ⟨0x00#8, bits "1110000"⟩ := by decide
/-- V-HAM-5: the length gate before the alphabet. -/
theorem test_ham74_length_first : run1 (.ham74 (syms "10a11") []) = some ⟨0x02#8, []⟩ := by decide
/-- V-LUHN-1 and V-LUHN-2. -/
theorem test_luhn_canonical :
    run1 (.luhn (syms "79927398713") []) = some ⟨0x00#8, bits "1"⟩ ∧
      run1 (.luhn (syms "79927398710") []) = some ⟨0x00#8, bits "0"⟩ := by decide
/-- V-LUHN-15: a separator is not skipped. -/
theorem test_luhn_separator : run1 (.luhn (syms "7992-7398713") []) = some ⟨0x03#8, []⟩ := by decide
/-- V-CRC-20: the generator before the data. -/
theorem test_crc_generator_first : run1 (.crc (syms "12") []) = some ⟨0x01#8, []⟩ := by decide

/-! ### The interface (95_test_vectors, sections 7 and 8) -/

/-- The table's words run as the first instruction after reset. -/
theorem test_first_instruction_after_reset :
    ([0, 1, 2, 3, 4].map fun w => rspAfter (step (State.reset.withFetchWord 8 w))) =
      [some ⟨0x01#8, []⟩, some ⟨0x00#8, bits "00000000"⟩, some ⟨0x00#8, bits "0"⟩, some ⟨0x02#8, []⟩,
        some ⟨0x00#8, bits "1"⟩] := by decide
/-- V-ERR-6: no operand of an illegal request is read. -/
theorem test_illegal_request :
    rspAfter (step (one (busyInst ⟨0xFF#8, syms "xyz", []⟩) [.complete])) = some ⟨0x04#8, []⟩ := by decide
/-- V-IF-1: READ after reset gives IDLE, and a read of RSP faults. -/
theorem test_read_after_reset :
    seenAfter (step (one Inst.reset [.read])) = some [.phase .idle] ∧
      faultOf (step (one Inst.reset [.readRsp])) = some .readUnwrittenRsp := by decide
/-- V-IF-2, V-IF-3: no move. -/
theorem test_no_move :
    faultOf (step (one (busyInst ⟨2#8, [], []⟩) [.issue ⟨2#8, [], []⟩])) = some .issueNotIdle ∧
      faultOf (step (one Inst.reset [.ack])) = some .ackNotDone := by decide
/-- V-IF-4: a request past the bound is refused, from the reset state. -/
theorem test_issue_past_the_bound (r : Request) (h : r.admitted = false) :
    step (one Inst.reset [.issue r]) = .refused .requestNotAdmitted := by
  simp [step, State.nextEvent, one, perform, issueSel, withSel, State.selected, Inst.doIssue, mapNext, h, Inst.reset]
/-- V-IF-5: reset in BUSY. -/
theorem test_reset_in_busy : phaseAfter (step (one (busyInst ⟨2#8, [], []⟩) [.reset])) = some .idle := by decide
/-- P4, step 2: a read of RSP in BUSY is a fault. -/
theorem test_read_rsp_in_busy :
    faultOf (step (one (busyInst ⟨2#8, syms "1", []⟩) [.readRsp])) = some .readUnwrittenRsp := by decide
/-- With nothing left to happen the BUSY instance completes (70_reset R162). -/
theorem test_completes_by_itself :
    rspAfter (step (one (busyInst ⟨2#8, syms "1", []⟩) [])) = some ⟨0x00#8, bits "1"⟩ := by decide
/-- The trace of V-CRC-2: the buffer after the first position. -/
theorem test_work_crc_trace :
    workAfter ⟨0#8, syms "1101011011", syms "10011"⟩ 2 = .crc (bits "01001110110000") 1 := by decide
/-- 30_encoding R71: P1 step 1 and V-ERR-4 as written, with a comment; V-CSUM-14 with its second string; an escape; a line
that is none. -/
theorem test_assemble :
    assemble "CRC \"1101\", \"10\" ; P1".toList = .request ⟨0#8, [0x31#8, 0x31#8, 0x30#8, 0x31#8], [0x31#8, 0x30#8]⟩ ∧
      assemble "CSUM \"1010\", \"zz\"".toList =
        .request ⟨1#8, [0x31#8, 0x30#8, 0x31#8, 0x30#8], [0x7A#8, 0x7A#8]⟩ ∧
      assemble ".req 0x08, \"1\"".toList = .request ⟨0x08#8, [0x31#8], []⟩ ∧
      assemble "LUHN \"\\x2D\\\\\\\"\"".toList = .request ⟨4#8, [0x2D#8, 0x5C#8, 0x22#8], []⟩ ∧
      assemble "; only a comment".toList = .nothing ∧ assemble "CRC \"1\"".toList = .malformed := by decide

/-! ### Witnesses: each shows that the hypotheses of a statement are met together -/

/-- A platform of NUM_INSTANCES instances, the first of them `c`. -/
def withFirst (c : Inst) (acts : List Action) : State :=
  ⟨c :: List.replicate Config.extraInstances Inst.reset, 0, acts.map (Event.mk 0), []⟩

theorem withFirst_inv {c : Inst} (h : c.Inv) (acts : List Action) : (withFirst c acts).Inv := by
  refine ⟨by simp [withFirst, Config.numInstances], fun d hd => ?_⟩
  simp only [withFirst, List.mem_cons, List.mem_replicate] at hd
  rcases hd with rfl | ⟨-, rfl⟩
  · exact h
  · exact Inst.reset_inv

theorem withFirst_reset_seenInv (acts : List Action) : (withFirst Inst.reset acts).SeenInv := by
  intro k c hc
  have : c = Inst.reset := by
    have := List.mem_of_getElem? hc
    simp only [withFirst, List.mem_cons, List.mem_replicate] at this
    tauto
  subst this
  exact Follow.start_agrees rfl

theorem busyInst_inv {r : Request} (h : r.admitted = true) : (busyInst r).Inv := ⟨r, rfl, h, rfl, 0, rfl⟩

theorem doneInst_inv {r : Request} (h : r.admitted = true) : (doneInst r (coreResponse r)).Inv := ⟨r, rfl, h, rfl, rfl⟩

theorem busyState_busy (i : Instr) : (busyState i).busy := ⟨_, rfl, rfl⟩

/-- ResetEventClearsInstance, in each phase. -/
theorem witness_reset_event :
    ∀ c ∈ [Inst.reset, busyInst ⟨0#8, [], []⟩, doneInst ⟨2#8, [], []⟩ ⟨0#8, [false]⟩],
      (one c [.reset]).nextEvent = some (.reset, one c []) ∧ (one c []).selected = some c := by decide

/-- ReadOfResponseAfterResetFaults: at once, and after an ISSUE, a READ and a working step. -/
theorem witness_read_after_reset :
    (one (doneInst ⟨2#8, [], []⟩ ⟨0#8, [false]⟩) [.reset, .readRsp]).script = [⟨0, .reset⟩, ⟨0, .readRsp⟩] ∧
      (one (doneInst ⟨2#8, [], []⟩ ⟨0#8, [false]⟩) []).insts[0]? = some (doneInst ⟨2#8, [], []⟩ ⟨0#8, [false]⟩) ∧
      phaseAfter (Host.Core.run core 4
        (one (doneInst ⟨2#8, [], []⟩ ⟨0#8, [false]⟩) [.reset, .issue ⟨2#8, [], []⟩, .read, .work, .readRsp])) =
          some .busy := by
  decide

/-- ReissueAfterResetGivesTheLostResponse, and the step's own hypotheses for a latched request. -/
theorem witness_reissue :
    let r : Request := ⟨2#8, syms "1011", []⟩
    (one (busyInst r) [.reset, .issue r, .complete]).script = [⟨0, .reset⟩, ⟨0, .issue r⟩, ⟨0, .complete⟩] ∧
      (busyInst r).phase = .busy ∧ (busyInst r).req = some r ∧ r.admitted = true := by decide

/-- IllegalByteIsAnsweredIllegalOp, at the first and the last byte of each kind. -/
theorem witness_illegal_byte :
    ∀ b ∈ [0x05#8, 0x07#8, 0x08#8, 0xFF#8], (b.toNat / 8 ≠ 0 ∨ 5 ≤ b.toNat % 8) ∧
      (one (busyInst ⟨b, [], []⟩) [.complete]).nextEvent = some (.complete, one (busyInst ⟨b, [], []⟩) []) := by decide

theorem witness_latched (r : Request) : (one (busyInst r) []).latched r := ⟨_, rfl, rfl, rfl⟩

/-- SymbolClassesAndValues, at the ends of both classes. -/
theorem witness_symbol_classes :
    isBit 0x30#8 = true ∧ isBit 0x31#8 = true ∧ isBit 0x2F#8 = false ∧ isBit 0x32#8 = false ∧ isDigit 0x30#8 = true ∧
      isDigit 0x39#8 = true ∧ isDigit 0x2F#8 = false ∧ isDigit 0x3A#8 = false := by decide

/-- StepRunsTheDecodedInstruction: the scheduled COMPLETE, and the first BUSY instance of three. -/
theorem witness_step_runs :
    let r : Request := ⟨3#8, syms "1011", []⟩
    ((one (busyInst r) [.complete]).script = [⟨0, .complete⟩] ∧ decode r = .instr (.ham74 (syms "1011") [])) ∧
      ([Inst.reset, busyInst r, busyInst r] : List Inst)[1]? = some (busyInst r) ∧ Inst.reset.phase ≠ .busy := by decide

/-- PlatformWaitsForItsHosts. -/
theorem witness_platform_waits :
    (one Inst.reset []).script = [] ∧ ∀ c ∈ (one Inst.reset []).insts, c.phase ≠ .busy := by decide

theorem witness_bitString : BitString (syms "1011") ∧ BitString (syms "11") ∧ BitString [] ∧ ¬ BitString (syms "12") ∧
    ¬ BitString (syms "10a1") := by
  refine ⟨?_, ?_, ?_, ?_, ?_⟩ <;> simp [BitString, syms]

theorem witness_digitString : DigitString (syms "09") ∧ DigitString [] ∧ ¬ DigitString (syms "7-") := by
  refine ⟨?_, ?_, ?_⟩ <;> simp [DigitString, syms]

/-- DispatchFollowsTheErrorPriority: each clause's request. -/
theorem witness_dispatch_clauses :
    ((syms "1").length < 2 ∧ 2 ≤ (syms "11").length) ∧ (syms "101").length ≠ 4 ∧ (syms "10a1").length = 4 := by decide

/-- The hypotheses of every statement about CRC: lengths 1 and 2 on the two sides of the bound. -/
theorem witness_crc :
    (busyState (.crc (syms "1011") (syms "11"))).busy ∧ BitString (syms "1011") ∧ BitString (syms "11") ∧
      2 ≤ (syms "11").length ∧ (syms "1").length < 2 ∧ (syms "11").length ≤ Config.maxGenLen ∧
      BitString (0x30#8 :: syms "1") ∧ 1 ≤ (syms "1").length := by
  refine ⟨busyState_busy _, ?_, ?_, by decide, by decide, by decide, ?_, by decide⟩ <;> simp [BitString, syms]

/-- CrcDividesByWindowXor: the buffers of the division of `1` by `11`. -/
theorem witness_crc_buffers :
    let B : Nat → List Bit := fun i => if i = 0 then [true, false] else [false, true]
    B 0 = (syms "1").map (fun c => decide (c = 0x31#8)) ++ List.replicate ((syms "11").length - 1) false ∧
      ∀ i p, i < (syms "1").length → (B (i + 1))[p]? =
        if (B i)[i]? = some true ∧ i ≤ p ∧ p < i + (syms "11").length
          then (B i)[p]?.map fun b => (b ^^ decide ((syms "11")[p - i]? = some 0x31#8)) else (B i)[p]? := by
  have h1 : syms "1" = [0x31#8] := by decide
  have h2 : syms "11" = [0x31#8, 0x31#8] := by decide
  rw [h1, h2]
  refine ⟨by decide, fun i p hi => ?_⟩
  obtain rfl : i = 0 := by simpa using hi
  match p with
  | 0 => decide
  | 1 => decide
  | p + 2 => simp

/-- The hypotheses of the statements about CSUM and PAR. -/
theorem witness_csum_par :
    (busyState (.csum (syms "1011") [])).busy ∧ (busyState (.par (syms "1011") [])).busy ∧ BitString (syms "1011") ∧
      ¬ BitString (syms "12") :=
  ⟨busyState_busy _, busyState_busy _, witness_bitString.1, witness_bitString.2.2.2.1⟩

/-- CsumAccumulatorEndsInTheResult and ParRegisterEndsInTheResult: a first working step to go on from. -/
theorem witness_work_runs :
    workAfter (encode (.csum (syms "1011") [])) 1 = .csum 0#8 0 ∧ 0 < ((syms "1011").length + 7) / 8 ∧
      workAfter (encode (.par (syms "1011") [])) 1 = .par false 0 ∧ (syms "1011")[0]? = some 0x31#8 ∧
      workAfter (encode (.crc (syms "1") (syms "11"))) 1 = .crc [true, false] 0 ∧
      (List.range 1).Perm (List.range (((syms "1011").length + 7) / 8)) := by
  refine ⟨by decide, by decide, by decide, by decide, by decide, ?_⟩
  exact List.Perm.refl _

/-- The hypotheses of the statements about HAM74: length 3, 4 and 5. -/
theorem witness_ham74 :
    (busyState (.ham74 (syms "1011") [])).busy ∧ (syms "1011").length = 4 ∧ BitString (syms "1011") ∧
      (syms "101").length ≠ 4 ∧ (syms "10110").length ≠ 4 ∧ (syms "10a1").length = 4 ∧ ¬ BitString (syms "10a1") :=
  ⟨busyState_busy _, by decide, witness_bitString.1, by decide, by decide, by decide, witness_bitString.2.2.2.2⟩

/-- The hypotheses of the statements about LUHN. -/
theorem witness_luhn :
    (busyState (.luhn (syms "09") [])).busy ∧ DigitString (syms "09") ∧ ¬ DigitString (syms "7-") :=
  ⟨busyState_busy _, witness_digitString.1, witness_digitString.2.2⟩

/-- OkResultLengths and StatusCauseTable: an OK response and an error of each operation occur. -/
theorem witness_statuses :
    (respond (.crc (syms "1") (syms "11"))).status = 0x00#8 ∧ (respond (.csum [] [])).status = 0x00#8 ∧
      (respond (.par [] [])).status = 0x00#8 ∧ (respond (.ham74 (syms "1011") [])).status = 0x00#8 ∧
      (respond (.luhn [] [])).status = 0x00#8 ∧ (respond (.ham74 [] [])).status ≠ 0x00#8 ∧
      (respond (.crc [] [])).status ≠ 0x00#8 := by decide

/-- ErrorGivesNoResultAndAckReturnsToIdle. -/
theorem witness_error :
    (one (busyInst ⟨3#8, [], []⟩) []).latched ⟨3#8, [], []⟩ ∧ (coreResponse ⟨3#8, [], []⟩).status ≠ 0x00#8 :=
  ⟨witness_latched _, by decide⟩

/-- ExecFrame. -/
theorem witness_exec_frame (i : Instr) : exec i (busyState i) = .next ((busyState i).answered (respond i)) :=
  exec_busy i (busyState_busy i)

/-- IssueLatchesOnlyInIdleWithinBounds: in IDLE within the bounds, and in BUSY. -/
theorem witness_issue :
    let r : Request := ⟨0#8, syms "1011", syms "11"⟩
    (one Inst.reset [.issue r]).nextEvent = some (.issue r, one Inst.reset []) ∧
      r.data.length ≤ Config.maxDataLen ∧ r.gen.length ≤ Config.maxGenLen ∧
      (one (busyInst r) [.issue r]).nextEvent = some (.issue r, one (busyInst r) []) := by decide

/-- AckReleasesOnlyInDone and ReadReturnsPhaseAndResponse: in DONE with a response, and outside DONE. -/
theorem witness_ack_read :
    let c := doneInst ⟨2#8, [], []⟩ ⟨0#8, [false]⟩
    (one c [.ack]).nextEvent = some (.ack, one c []) ∧ (one c [.read]).nextEvent = some (.read, one c []) ∧
      (one c [.readRsp]).nextEvent = some (.readRsp, one c []) ∧ c.phase = .done ∧ c.rsp = some ⟨0#8, [false]⟩ ∧
      (one Inst.reset [.ack]).nextEvent = some (.ack, one Inst.reset []) ∧ Inst.reset.phase ≠ .done := by decide

/-- ActionsMoveExactlyWhereEnabled: a state of the invariant in each phase. -/
theorem witness_actions (acts : List Action) :
    (withFirst Inst.reset acts).Inv ∧ (withFirst (busyInst ⟨2#8, [], []⟩) acts).Inv ∧
      (withFirst (doneInst ⟨2#8, [], []⟩ (coreResponse ⟨2#8, [], []⟩)) acts).Inv :=
  ⟨withFirst_inv Inst.reset_inv _, withFirst_inv (busyInst_inv (by decide)) _,
    withFirst_inv (doneInst_inv (by decide)) _⟩

theorem witness_actions_event :
    (withFirst Inst.reset [.read]).nextEvent = some (.read, withFirst Inst.reset []) ∧
      (withFirst Inst.reset []).selected = some Inst.reset := ⟨rfl, rfl⟩

/-- PhaseTransitionsAreTheFour: a step of each kind of action. -/
theorem witness_phase_changes :
    phaseAfter (step (one (busyInst ⟨2#8, [], []⟩) [.complete])) = some .done ∧
      phaseAfter (step (one (doneInst ⟨2#8, [], []⟩ ⟨0#8, [false]⟩) [.ack])) = some .idle ∧
      phaseAfter (step (one Inst.reset [.issue ⟨2#8, [], []⟩])) = some .busy ∧
      phaseAfter (step (one (busyInst ⟨2#8, [], []⟩) [.reset])) = some .idle ∧
      phaseAfter (step (one (busyInst ⟨2#8, [], []⟩) [.read])) = some .busy := by decide

/-- InstancesShareNothing: two platforms that agree on instance 0 only. -/
theorem witness_instances :
    let c := busyInst ⟨2#8, [], []⟩
    let s : State := ⟨[c, Inst.reset], 0, [⟨0, .complete⟩], []⟩
    let u : State := ⟨[c], 7, [⟨0, .complete⟩, ⟨0, .ack⟩], [⟨0, .acked⟩]⟩
    s.insts[0]? = u.insts[0]? ∧ phaseAfter (step s) = some .done := by decide

/-- WorkingStepsAreNotObservable. -/
theorem witness_working_step :
    (one (busyInst ⟨2#8, [], []⟩) [.work]).nextEvent = some (.work, one (busyInst ⟨2#8, [], []⟩) []) ∧
      (one (busyInst ⟨2#8, [], []⟩) []).selected = some (busyInst ⟨2#8, [], []⟩) ∧
      phaseAfter (step (one (busyInst ⟨2#8, [], []⟩) [.work])) = some .busy := by decide

/-- TransactionGivesTheRequestsOwnResponse. -/
theorem witness_transaction :
    let r : Request := ⟨2#8, [], []⟩
    (one Inst.reset [.issue r, .complete, .readRsp, .ack]).script =
      [⟨0, .issue r⟩, ⟨0, .complete⟩, ⟨0, .readRsp⟩, ⟨0, .ack⟩] ∧ Inst.reset.phase = .idle ∧ r.admitted = true := by
  decide

/-- EveryBusyInstanceCompletes. -/
theorem witness_every_busy :
    (withFirst (busyInst ⟨2#8, [], []⟩) []).Inv ∧ (withFirst (busyInst ⟨2#8, [], []⟩) []).script = [] :=
  ⟨(witness_actions []).2.1, rfl⟩

/-- `withFirst Inst.reset` with what was seen, where a run at instance 0 has ended. -/
def endedState (acts : List Action) (answers : List Answer) : State :=
  { withFirst Inst.reset acts with seen := answers.map (Seen.mk 0) }

/-- EndedRunObservesOwnResponses: the run of one request, ended before a reset begins another run (70_reset R164). -/
theorem witness_ended :
    let r : Request := ⟨2#8, [], []⟩
    let s := withFirst Inst.reset [.issue r, .complete, .readRsp, .ack, .reset, .issue r]
    let t := endedState [.reset, .issue r] [.issued r, .response ⟨0#8, [false]⟩, .acked]
    s.Inv ∧ s.SeenInv ∧ Host.Core.run core 4 s = .next t ∧ t.ended 0 ∧
      t.observation 0 = [(r, ⟨0#8, [false]⟩)] ∧ (t.follow 0).issued = [r] :=
  ⟨(witness_actions _).1, withFirst_reset_seenInv _, rfl, ⟨by decide, ⟨_, rfl, rfl⟩, rfl⟩, by decide, by decide⟩

/-- 70_reset R164: a run whose host acknowledged a request unread has not ended, nor has one with an action left. -/
theorem test_not_ended :
    let r : Request := ⟨2#8, [], []⟩
    ¬ (endedState [] [.issued r, .acked]).ended 0 ∧ ¬ (endedState [.issue r] []).ended 0 := by
  constructor
  · rintro ⟨-, -, h⟩
    exact absurd h (by decide)
  · rintro ⟨h, -⟩
    exact absurd (h (.issue ⟨2#8, [], []⟩) (by decide)) (by decide)

/-- StepKeepsInstancesConsistent and StepKeepsWhatWasSeenConsistent: a step that issues a request. -/
theorem witness_step_keeps :
    let s := withFirst Inst.reset [.issue ⟨2#8, [], []⟩]
    s.Inv ∧ s.SeenInv ∧ phaseAfter (step s) = some .busy :=
  ⟨(witness_actions _).1, withFirst_reset_seenInv _, by decide⟩

end Sys2Proof.Machine
end

section
/-! Proofs for 00_scope: the bounds of the OPEN parameters (R7) and the determinism of responses (R15). -/

namespace Sys2Proof.Machine

/-- Admission looks at the lengths of both operands and at nothing else (10_state R29). -/
theorem admitted_iff (r : Request) :
    r.admitted = true ↔ r.data.length ≤ Config.maxDataLen ∧ r.gen.length ≤ Config.maxGenLen := by
  simp [Request.admitted, dataFits, genFits]

/-- A step whose next event is COMPLETE of a latched request answers `CORE(REQ)` (10_state R30). -/
theorem step_complete_latched {s s' : State} {r : Request} (he : s.nextEvent = some (.complete, s'))
    (hr : s'.latched r) : step s = .next (s'.answered (coreResponse r)) := by
  calc
    step s = completeSel s' := step_some he
    _ = .next (s'.answered (coreResponse r)) := completeSel_latched hr

/-- Settles O1: the slack of each OPEN parameter is a natural number, and admission is `admitted_iff`. -/
theorem parametersMeetTheirBounds : Obligations.ParametersMeetTheirBounds :=
  ⟨Nat.le_add_left 4 Config.dataSlack, Nat.le_add_left 2 Config.genSlack, Nat.le_add_left 1 Config.extraInstances,
    admitted_iff⟩

/-- Settles O16: the function is `CORE(REQ)` itself, `coreResponse`. -/
theorem responseIsAFunctionOfTheRequest : Obligations.ResponseIsAFunctionOfTheRequest :=
  ⟨coreResponse, fun _ _ _ => step_complete_latched⟩

end Sys2Proof.Machine
end

section
/-! Proofs for 10_state: what each action does to its own instance (R28 to R32), the four transitions of PHASE (R21),
and that instances share nothing (R27). -/

namespace Sys2Proof.Machine

/-! ### An action as a move of one instance -/

/-- The move of one instance `c` to `c'` by an action, with what its host did or got back. It names neither a platform
nor another instance (10_state R27); `perform_next_iff` ties it to the machine. -/
inductive Action.Moves : Action → Inst → Inst → List Answer → Prop
  | issue {r : Request} {c : Inst} (hp : c.phase = .idle) (hr : r.admitted = true) :
      Moves (.issue r) c { c with phase := .busy, req := some r } [.issued r]
  | read {c : Inst} {x : Answer} (hx : c.read = .next x) : Moves .read c c [x]
  | readRsp {c : Inst} {x : Response} (hp : c.phase = .done) (hx : c.rsp = some x) :
      Moves .readRsp c c [.response x]
  | ack {c : Inst} (hp : c.phase = .done) :
      Moves .ack c { c with phase := .idle, req := none, rsp := none } [.acked]
  | work {c : Inst} {r : Request} (hp : c.phase = .busy) (hr : c.req = some r) :
      Moves .work c { c with work := workStep r c.work } []
  | complete {c : Inst} {r : Request} (hp : c.phase = .busy) (hr : c.req = some r) :
      Moves .complete c (c.answer (coreResponse r)) []
  | reset {c : Inst} : Moves .reset c Inst.reset [.reset]

/-- The platform after its selected instance moved to `c` with the answers `l`. -/
def State.moved (c : Inst) (l : List Answer) (s : State) : State :=
  { s with insts := s.insts.set s.sel c, seen := s.seen ++ l.map (Seen.mk s.sel) }

theorem State.moved_nil (c : Inst) (s : State) : s.moved c [] = s.setSel c := by
  simp [State.moved, State.setSel]

/-- A move that leaves the selected instance as it is: only the answer is new. -/
theorem State.moved_selected {s : State} {c : Inst} (hc : s.selected = some c) (a : Answer) :
    s.moved c [a] = s.saw a := by
  obtain ⟨hlt, rfl⟩ := List.getElem?_eq_some_iff.1 hc
  simp [State.moved, State.saw]

theorem State.moved_insts_same {s : State} {c : Inst} (hc : s.selected = some c) (c' : Inst) (l : List Answer) :
    (s.moved c' l).insts[s.sel]? = some c' :=
  State.setSel_same c' hc

theorem State.moved_insts_other {s : State} {k : Nat} (hk : k ≠ s.sel) (c' : Inst) (l : List Answer) :
    (s.moved c' l).insts[k]? = s.insts[k]? :=
  State.setSel_other c' s hk

theorem State.moved_seen_drop (c' : Inst) (l : List Answer) (s : State) :
    (s.moved c' l).seen.drop s.seen.length = l.map (Seen.mk s.sel) :=
  List.drop_left

/-- Where the selected instance has a move, the platform takes it. -/
theorem Action.Moves.perform_eq {a : Action} {c c' : Inst} {l : List Answer} (h : a.Moves c c' l) {s : State}
    (hc : s.selected = some c) : perform a s = .next (s.moved c' l) := by
  cases h with
  | issue hp hr => exact issueSel_next.2 ⟨c, hc, hp, hr, rfl⟩
  | read hx => exact readSel_next.2 ⟨c, _, hc, hx, State.moved_selected hc _⟩
  | readRsp hp hx => exact readRspSel_next.2 ⟨c, _, hc, hp, hx, State.moved_selected hc _⟩
  | ack hp => exact ackSel_next.2 ⟨c, hc, hp, rfl⟩
  | work hp hr => exact workOne_next.2 ⟨c, _, hc, hp, hr, State.moved_nil _ s⟩
  | complete hp hr =>
    refine completeSel_next.2 ⟨_, ⟨c, hc, hp, hr⟩, ?_⟩
    rw [State.answered_eq _ hc, State.moved_nil]
  | reset => exact resetSel_next.2 ⟨c, hc, rfl⟩

/-- What the platform does with an action is the move of the selected instance, and nothing else. -/
theorem perform_next_iff {a : Action} {s t : State} :
    perform a s = .next t ↔ ∃ c c' l, s.selected = some c ∧ a.Moves c c' l ∧ t = s.moved c' l := by
  constructor
  · intro h
    obtain ⟨c, hc, hm⟩ := perform_cases h
    suffices hmove : ∃ c' l, a.Moves c c' l by
      obtain ⟨c', l, hmove⟩ := hmove
      exact ⟨c, c', l, hc, hmove, Host.Outcome.next.inj (h.symm.trans (hmove.perform_eq hc))⟩
    obtain ⟨r, rfl, hp, hr, -⟩ | ⟨rfl, x, hx, -⟩ | ⟨rfl, hp, x, hx, -⟩ | ⟨rfl, hp, -⟩ | ⟨rfl, hp, r, hr, -⟩ |
      ⟨rfl, hp, r, hr, -⟩ | ⟨rfl, -⟩ := hm
    · exact ⟨_, _, .issue hp hr⟩
    · exact ⟨_, _, .read hx⟩
    · exact ⟨_, _, .readRsp hp hx⟩
    · exact ⟨_, _, .ack hp⟩
    · exact ⟨_, _, .work hp hr⟩
    · exact ⟨_, _, .complete hp hr⟩
    · exact ⟨_, _, .reset⟩
  · rintro ⟨c, c', l, hc, hmove, rfl⟩
    exact hmove.perform_eq hc

/-- An action changes no instance but the selected one. -/
theorem perform_insts_other {a : Action} {s t : State} (h : perform a s = .next t) {k : Nat} (hk : k ≠ s.sel) :
    t.insts[k]? = s.insts[k]? := by
  obtain ⟨_, c', l, -, -, rfl⟩ := perform_next_iff.1 h
  exact State.moved_insts_other hk c' l

/-- The selected instance before an action and after it are the two ends of its move. -/
theorem moves_of_perform {a : Action} {s t : State} {c c' : Inst} (h : perform a s = .next t)
    (hc : s.selected = some c) (hc' : t.insts[s.sel]? = some c') : ∃ l, a.Moves c c' l := by
  obtain ⟨d, d', l, hd, hmove, rfl⟩ := perform_next_iff.1 h
  obtain rfl : d = c := Option.some.inj (hd.symm.trans hc)
  obtain rfl : d' = c' := Option.some.inj ((State.moved_insts_same hd d' l).symm.trans hc')
  exact ⟨l, hmove⟩

/-- A step that changes an instance is an action on that instance. -/
theorem step_changes_selected {s t : State} {k : Nat} (h : step s = .next t) (hk : t.insts[k]? ≠ s.insts[k]?) :
    ∃ a s', s.nextEvent = some (a, s') ∧ s'.sel = k := by
  rcases step_cases h with ⟨-, rfl⟩ | ⟨a, s', he, hp⟩
  · exact absurd rfl hk
  · refine ⟨a, s', he, ?_⟩
    by_contra hne
    apply hk
    rw [perform_insts_other hp (Ne.symm hne), (nextEvent_keeps he).1]

/-- Settles O52: an instance that changes is the selected one, and its move stands in the table of R21. -/
theorem phaseTransitionsAreTheFour : Obligations.PhaseTransitionsAreTheFour := by
  constructor
  · intro s t k c c' h hc hc' hne
    refine step_changes_selected h fun heq => hne ?_
    rw [hc, hc'] at heq
    rw [Option.some.inj heq]
  · intro s s' t a c c' he h hc hc'
    rw [step_some he] at h
    rw [← (nextEvent_keeps he).1] at hc
    obtain ⟨l, hmove⟩ := moves_of_perform h hc hc'
    cases hmove with
    | issue hp _ => exact ⟨hp, rfl⟩
    | complete hp _ => exact ⟨hp, rfl⟩
    | ack hp => exact ⟨hp, rfl⟩
    | reset => rfl
    | read _ => rfl
    | readRsp _ _ => rfl
    | work _ _ => rfl

/-- Settles O53: the move of instance `k` names no platform, so both platforms take the same one. -/
theorem instancesShareNothing : Obligations.InstancesShareNothing := by
  intro s u t k a rest rest' hs hu hk h
  rw [step_some (nextEvent_script hs)] at h
  refine ⟨fun j hj => perform_insts_other h hj, ?_⟩
  obtain ⟨c, c', l, hc, hmove, rfl⟩ := perform_next_iff.1 h
  have hcu : State.selected { u with script := rest', sel := k } = some c := hk.symm.trans hc
  refine ⟨_, (step_some (nextEvent_script hu)).trans (hmove.perform_eq hcu), ?_, ?_⟩
  · exact (State.moved_insts_same hcu c' l).trans (State.moved_insts_same hc c' l).symm
  · calc
      _ = l.map (Seen.mk k) := State.moved_seen_drop c' l { u with script := rest', sel := k }
      _ = _ := (State.moved_seen_drop c' l { s with script := rest, sel := k }).symm

/-! ### The host's actions -/

/-- READ of RSP outside DONE faults (10_state R24). -/
theorem readRspSel_not_done {s : State} {c : Inst} (hc : s.selected = some c) (hp : c.phase ≠ .done) :
    readRspSel s = .fault .readUnwrittenRsp := by
  have hf : c.readRsp = .fault .readUnwrittenRsp := by
    unfold Inst.readRsp
    split
    · exact absurd ‹c.phase = .done› hp
    · rfl
  rw [readRspSel, withSel_some hc, hf, mapNext]

/-- Settles O48: `issueSel_next` gives both the move and its only conditions, `admitted_iff` the bounds. -/
theorem issueLatchesOnlyInIdleWithinBounds : Obligations.IssueLatchesOnlyInIdleWithinBounds := by
  intro s s' r c he hc
  have hstep : step s = issueSel r s' := step_some he
  rw [hstep]
  split
  next h => exact issueSel_next.2 ⟨c, hc, h.1, (admitted_iff r).2 h.2, rfl⟩
  next h =>
    intro t ht
    obtain ⟨d, hd, hp, hr, -⟩ := issueSel_next.1 ht
    obtain rfl : d = c := Option.some.inj (hd.symm.trans hc)
    exact h ⟨hp, (admitted_iff r).1 hr⟩

/-- Settles O49: `ackSel_next` gives both the move and its only condition. -/
theorem ackReleasesOnlyInDone : Obligations.AckReleasesOnlyInDone := by
  intro s s' c he hc
  have hstep : step s = ackSel s' := step_some he
  rw [hstep]
  split
  next h => exact ackSel_next.2 ⟨c, hc, h, rfl⟩
  next h =>
    intro t ht
    obtain ⟨d, hd, hp, -⟩ := ackSel_next.1 ht
    obtain rfl : d = c := Option.some.inj (hd.symm.trans hc)
    exact h hp

/-- Settles O50: `Inst.read_next` outside DONE, both reads in DONE, and `readRspSel_not_done`. -/
theorem readReturnsPhaseAndResponse : Obligations.ReadReturnsPhaseAndResponse := by
  refine ⟨fun s s' c he hc hp => ?_, fun s s' a c x he ha hc hp hx => ?_, fun s s' c he hc hp => ?_⟩
  · have hread : c.read = .next (.phase c.phase) := Inst.read_next.2 (.inr ⟨hp, rfl⟩)
    exact (step_some he).trans (readSel_next.2 ⟨c, _, hc, hread, rfl⟩)
  · rcases ha with rfl | rfl
    · have hread : c.read = .next (.response x) := Inst.read_next.2 (.inl ⟨hp, x, hx, rfl⟩)
      exact (step_some he).trans (readSel_next.2 ⟨c, _, hc, hread, rfl⟩)
    · exact (step_some he).trans (readRspSel_next.2 ⟨c, x, hc, hp, hx, rfl⟩)
  · exact (step_some he).trans (readRspSel_not_done hc hp)

end Sys2Proof.Machine
end

section
/-! Proofs for 30_encoding: the command byte (R57 to R59), the status byte (R63, R64) and the length of an OK result
(R68). -/

namespace Sys2Proof.Machine

/-! ### The command byte -/

/-- Exactly the bytes up to 4 select an operation (30_encoding R57 to R59). -/
theorem decode_instr_iff (r : Request) : (∃ i, decode r = .instr i) ↔ r.op.toNat ≤ 4 := by
  rw [decode_eq]
  split_ifs <;> simp <;> omega

/-- Settles O7: `decode_eq` at each of the five bytes; `decode_instr_iff`, with its bound read on the two fields. -/
theorem commandByteSelectsOperation : Obligations.CommandByteSelectsOperation := by
  intro r
  have hfields : r.op.toNat ≤ 4 ↔ r.op.toNat / 8 = 0 ∧ r.op.toNat % 8 ≤ 4 := by omega
  refine ⟨?_, ?_, ?_, ?_, ?_, (decode_instr_iff r).trans hfields⟩
  all_goals
    intro hop
    simp [decode_eq, hop]

/-- Settles O11: a byte with a reserved bit or code exceeds 4, so COMPLETE answers by `coreResponse_illegal`. -/
theorem illegalByteIsAnsweredIllegalOp : Obligations.IllegalByteIsAnsweredIllegalOp := by
  intro s s' r he hr hop
  have hbyte : 4 < r.op.toNat := by omega
  calc
    step s = .next (s'.answered (coreResponse r)) := step_complete_latched he hr
    _ = .next (s'.answered (raise .illegalOp)) := by rw [coreResponse_illegal hbyte]

/-! ### The two forms of a response -/

/-- The two forms of a response: OK with a result whose length meets `P`, or an error status with no result
(30_encoding R65, R68, 60_exceptions R140). `respond_answers` ties it to the operations. -/
inductive Answers (P : Nat → Prop) : Response → Prop
  | ok {bits : List Bit} (h : P bits.length) : Answers P (okWith bits)
  | error {st : Status} (h : st ≠ .ok) : Answers P (raise st)

theorem statusByte_le (st : Status) : (statusByte st).toNat ≤ 4 := by
  cases st <;> decide

theorem statusByte_eq_ok_iff (st : Status) : statusByte st = 0x00#8 ↔ st = .ok := by
  cases st <;> decide

theorem Answers.status_le {P : Nat → Prop} {x : Response} (h : Answers P x) : x.status.toNat ≤ 4 := by
  cases h with
  | ok => exact statusByte_le .ok
  | @error st _ => exact statusByte_le st

theorem Answers.length_of_ok {P : Nat → Prop} {x : Response} (h : Answers P x) (hx : x.status = 0x00#8) :
    P x.result.length := by
  cases h with
  | ok hP => exact hP
  | @error st hst => exact absurd ((statusByte_eq_ok_iff st).1 hx) hst

/-- An operation with the one check `Q`. -/
theorem Answers.of_check {Q : Prop} {P : Nat → Prop} {x : Response} {bits : List Bit} {st : Status}
    (hok : Q → x = okWith bits) (hbad : ¬ Q → x = raise st) (hst : st ≠ .ok) (hP : P bits.length) :
    Answers P x := by
  by_cases hQ : Q
  · rw [hok hQ]
    exact .ok hP
  · rw [hbad hQ]
    exact .error hst

/-! ### The length of an OK result -/

@[simp] theorem crcRemainder_length (D G : List Bit) : (crcRemainder D G).length = G.length - 1 := by
  simp [crcRemainder, remainderOf, dividend]

/-- The length that an operation gives its OK result (30_encoding R68). -/
def OkLength : Instr → Nat → Prop
  | .crc _ gen, n => n = gen.length - 1 ∧ 1 ≤ n
  | .csum _ _, n => n = 8
  | .par _ _, n => n = 1
  | .ham74 _ _, n => n = 7
  | .luhn _ _, n => n = 1

theorem crcResponse_answers (data gen : List Sym) : Answers (OkLength (.crc data gen)) (crcResponse data gen) := by
  by_cases hgen : 2 ≤ gen.length ∧ BitString gen
  · obtain ⟨hl, hg⟩ := hgen
    have hlen : (crcRemainder (bitsOf data) (bitsOf gen)).length = gen.length - 1 := by simp
    exact .of_check (crcResponse_ok hl hg) (crcResponse_bad_data hl hg) (by decide) ⟨hlen, by omega⟩
  · have hbad : gen.length < 2 ∨ ¬ BitString gen := by
      rwa [not_and_or, not_le] at hgen
    rw [crcResponse_bad_generator data hbad]
    exact .error (by decide)

theorem ham74Response_answers (data gen : List Sym) :
    Answers (OkLength (.ham74 data gen)) (ham74Response data gen) := by
  by_cases hl : data.length = 4
  · obtain ⟨c0, c1, c2, c3, rfl⟩ := List.length_eq_four.1 hl
    exact .of_check (ham74Response_ok gen) (ham74Response_bad_data gen hl) (by decide) rfl
  · rw [ham74Response_bad_length gen hl]
    exact .error (by decide)

/-- Every operation answers OK at its own length, or an error with no result. -/
theorem respond_answers (i : Instr) : Answers (OkLength i) (respond i) := by
  cases i with
  | crc data gen => exact crcResponse_answers data gen
  | csum data gen => exact .of_check (csumResponse_ok gen) (csumResponse_bad_data gen) (by decide) (bits8_length _)
  | par data gen => exact .of_check (parResponse_ok gen) (parResponse_bad_data gen) (by decide) rfl
  | ham74 data gen => exact ham74Response_answers data gen
  | luhn data gen => exact .of_check (luhnResponse_ok gen) (luhnResponse_bad_data gen) (by decide) rfl

/-- Settles O44: in BUSY the answer is `respond i`, and `respond_answers` gives its length when its status is OK. -/
theorem okResultLengths : Obligations.OkResultLengths := by
  intro s i hs
  refine ⟨respond i, exec_busy i hs, fun hok => ?_⟩
  have hlen : OkLength i (respond i).result.length := (respond_answers i).length_of_ok hok
  cases i <;> exact hlen

/-! ### The status byte -/

theorem coreResponse_status_le (r : Request) : (coreResponse r).status.toNat ≤ 4 := by
  by_cases hop : r.op.toNat ≤ 4
  · obtain ⟨i, hi⟩ := (decode_instr_iff r).2 hop
    rw [coreResponse_instr hi]
    exact (respond_answers i).status_le
  · rw [coreResponse_illegal (not_le.1 hop)]
    exact statusByte_le .illegalOp

/-- Settles O45: a status byte of at most 4 has a zero reserved field and a code of at most 4. -/
theorem statusByteFields : Obligations.StatusByteFields := by
  intro r
  have hle : (coreResponse r).status.toNat ≤ 4 := coreResponse_status_le r
  omega

end Sys2Proof.Machine
end

section
/-! Proofs for 40_crc: the checks of the generator (R81) and of the data (R82), and the division by XOR of the generator
into the window at each position that holds 1 (R83 to R86). -/

namespace Sys2Proof.Machine

@[simp] theorem okWith_status (bits : List Bit) : (okWith bits).status = 0x00#8 := rfl
@[simp] theorem raise_status (st : Status) : (raise st).status = statusByte st := rfl

theorem exec_crc_busy (data gen : List Sym) {s : State} (h : s.busy) :
    exec (.crc data gen) s = .next (s.answered (crcResponse data gen)) :=
  exec_busy (.crc data gen) h

/-! ### The division -/

/-- The coefficient of the generator at a position, read from its symbol; none lies past its end. -/
theorem bitsOf_getElem?_getD {gen : List Sym} (hg : BitString gen) (p : Nat) :
    (bitsOf gen)[p]?.getD false = decide (gen[p]? = some 0x31#8) := by
  rw [bitsOf_eq hg, List.getElem?_map]
  cases gen[p]? <;> simp

/-- The dividend, read from the symbols of both operands (40_crc R83). -/
theorem dividend_bitsOf {data : List Sym} (hd : BitString data) (gen : List Sym) :
    dividend (bitsOf data) (bitsOf gen) =
      data.map (fun c => decide (c = 0x31#8)) ++ List.replicate (gen.length - 1) false := by
  rw [dividend, bitsOf_eq hd, bitsOf_length, zeros]

/-- A buffer that is, at every position, the window XOR of `B` at `i` is the scan's next buffer (40_crc R84). -/
theorem eq_divStep_of_getElem? {gen : List Sym} (hg : BitString gen) {B B' : List Bit} {i : Nat}
    (h : ∀ p, B'[p]? = if B[i]? = some true ∧ i ≤ p ∧ p < i + gen.length
      then B[p]?.map fun b => (b ^^ decide (gen[p - i]? = some 0x31#8)) else B[p]?) :
    B' = divStep (bitsOf gen) B i := by
  apply List.ext_getElem?
  intro p
  rw [h p, divStep_get, bitsOf_length, bitsOf_getElem?_getD hg]

/-- Buffers that follow the scan for `n` positions are those of the division. -/
theorem eq_divide_of_steps {G : List Bit} {B : Nat → List Bit} {n : Nat}
    (h : ∀ i, i < n → B (i + 1) = divStep G (B i) i) : ∀ i, i ≤ n → B i = divide G (B 0) i := by
  intro i
  induction i with
  | zero => exact fun _ => (divide_zero G (B 0)).symm
  | succ i ih =>
    intro hi
    rw [h i hi, ih (Nat.le_of_succ_le hi), divide_succ]

/-- Settles O19: the buffers are those of `divide`, which keeps the size of the dividend. -/
theorem crcDividesByWindowXor : Obligations.CrcDividesByWindowXor := by
  intro s data gen B hs hd hg hl h0 hstep
  have hB : ∀ i, i ≤ data.length → B i = divide (bitsOf gen) (B 0) i :=
    eq_divide_of_steps fun i hi => eq_divStep_of_getElem? hg fun p => hstep i p hi
  constructor
  · intro i hi
    rw [hB i hi, divide_length, h0, List.length_append, List.length_map, List.length_replicate]
    omega
  · rw [exec_crc_busy data gen hs, crcResponse_ok hl hg hd, hB data.length le_rfl, h0, ← dividend_bitsOf hd gen,
      crcRemainder, remainderOf, bitsOf_length, bitsOf_length]
    rfl

/-! ### The checks -/

/-- Settles O17: a bad generator raises INVALID_GENERATOR; past that check only OK and INVALID_INPUT are left. -/
theorem crcChecksItsGenerator : Obligations.CrcChecksItsGenerator := by
  intro s data gen hs
  refine ⟨fun hbad => ?_, fun hl hg => ⟨crcResponse data gen, exec_crc_busy data gen hs, ?_⟩⟩
  · rw [exec_crc_busy data gen hs, crcResponse_bad_generator data hbad]
    rfl
  · by_cases hd : BitString data
    · rw [crcResponse_ok hl hg hd, okWith_status]
      decide
    · rw [crcResponse_bad_data hl hg hd, raise_status]
      decide

/-- Settles O18: under a valid generator bad data raises INVALID_INPUT, and the empty data is a bit string. -/
theorem crcChecksItsData : Obligations.CrcChecksItsData := by
  intro s data gen hs hl hg
  refine ⟨fun hbad => ?_, crcResponse [] gen, exec_crc_busy [] gen hs, ?_⟩
  · rw [exec_crc_busy data gen hs, crcResponse_bad_data hl hg hbad]
    rfl
  · have hempty : BitString [] := fun _ hc => absurd hc List.not_mem_nil
    rw [crcResponse_ok hl hg hempty, okWith_status]

end Sys2Proof.Machine
end

section
/-! Proofs for 41_checksum: the data check (R96), the sum of the groups of eight read index by index (R97 to R101), and
the checksum of no data (R103). -/

namespace Sys2Proof.Machine

theorem exec_csum_busy (data gen : List Sym) {s : State} (h : s.busy) :
    exec (.csum data gen) s = .next (s.answered (csumResponse data gen)) :=
  exec_busy (.csum data gen) h

/-! ### The sum of the groups, index by index -/

/-- What the bit at index `i` adds to the sum: its weight inside its group of eight, which ends with the data when it is
short (41_checksum R97, R98). `groupSum_eq` ties it to the model's sum. -/
def groupedBit (D : List Bit) (i : Nat) : Nat :=
  (D[i]?.getD false).toNat * 2 ^ (min (8 * (i / 8) + 8) D.length - 1 - i)

/-- The value of a bit sequence, bit by bit (41_checksum R100). -/
theorem val_eq_sum (bs : List Bit) :
    val bs = ((List.range bs.length).map fun j => (bs[j]?.getD false).toNat * 2 ^ (bs.length - 1 - j)).sum := by
  induction bs with
  | nil => rfl
  | cons b bs ih =>
    simp [val, ih, List.range_succ_eq_map, Function.comp_def, Nat.sub_sub, Nat.add_comm 1]

@[simp] theorem group_length (D : List Bit) (k : Nat) : (group D k).length = min 8 (D.length - 8 * k) := by
  simp [group]

theorem group_getElem? (D : List Bit) {k j : Nat} (hj : j < 8) : (group D k)[j]? = D[8 * k + j]? := by
  simp [group, hj]

/-- A group's value is what its bits add, at their indices in the data. -/
theorem val_group (D : List Bit) (k : Nat) :
    val (group D k) =
      ((List.range (group D k).length).map fun j => groupedBit D (min (8 * k) D.length + j)).sum := by
  rw [val_eq_sum]
  congr 1
  apply List.map_congr_left
  intro j hj
  rw [List.mem_range, group_length] at hj
  have hstart : min (8 * k) D.length = 8 * k := by omega
  have hexp : min 8 (D.length - 8 * k) - 1 - j =
      min (8 * ((8 * k + j) / 8) + 8) D.length - 1 - (8 * k + j) := by omega
  rw [groupedBit, hstart, group_getElem? D (by omega), group_length, hexp]

/-- The first `k` groups together are the data up to index `8k`, or to its end. -/
theorem sum_val_group (D : List Bit) (k : Nat) :
    ((List.range k).map fun m => val (group D m)).sum =
      ((List.range (min (8 * k) D.length)).map (groupedBit D)).sum := by
  induction k with
  | zero => simp
  | succ k ih =>
    have hend : min (8 * (k + 1)) D.length = min (8 * k) D.length + (group D k).length := by
      rw [group_length]
      omega
    rw [List.sum_range_succ, ih, val_group, hend, List.range_add, List.map_append, List.sum_append, List.map_map]
    rfl

/-- The model's sum of the group values is the sum over all indices of the data. -/
theorem groupSum_eq (D : List Bit) : groupSum D = ((List.range D.length).map (groupedBit D)).sum := by
  have hall : min (8 * groupCount D.length) D.length = D.length := by
    rw [groupCount]
    omega
  rw [groupSum, sum_val_group, hall]

/-- What an index adds, read from its symbol. -/
theorem groupedBit_bitsOf {data : List Sym} (hd : BitString data) (i : Nat) :
    groupedBit (bitsOf data) i =
      if data[i]? = some 0x31#8 then 2 ^ (min (8 * (i / 8) + 8) data.length - 1 - i) else 0 := by
  rw [groupedBit, bitsOf_getElem?_getD hd, bitsOf_length]
  by_cases h : data[i]? = some 0x31#8 <;> simp [h]

/-- Settles O26: `groupSum_eq` turns the sum over groups into the sum over indices, `groupedBit_bitsOf` each term. -/
theorem csumSumsGroupsModulo256 : Obligations.CsumSumsGroupsModulo256 := by
  intro s data gen hs hd
  rw [exec_csum_busy data gen hs, csumResponse_ok gen hd, groupSum_eq, bitsOf_length,
    funext (groupedBit_bitsOf hd)]
  rfl

/-! ### The data check and the empty data -/

/-- Settles O25: data that is no bit string raises INVALID_INPUT, whose byte is 3. -/
theorem csumChecksItsData : Obligations.CsumChecksItsData := by
  intro s data gen hs hbad
  rw [exec_csum_busy data gen hs, csumResponse_bad_data gen hbad]
  rfl

/-- The empty sequence is a well-formed bit string (30_encoding R62). -/
theorem bitString_nil : BitString [] :=
  List.forall_mem_nil _

/-- Settles O27: the empty data is a bit string with no group, and the sum 0 in eight bits is all zeros. -/
theorem csumOfNoDataIsZero : Obligations.CsumOfNoDataIsZero := by
  intro s gen hs
  have hzero : bits8 (groupSum (bitsOf []) % 256) = zeros 8 := by decide
  rw [exec_csum_busy [] gen hs, csumResponse_ok gen bitString_nil, hzero]
  rfl

end Sys2Proof.Machine
end

section
/-! Proofs for 42_parity: the data check (R106), the even count of ones (R107), and the parity of no data (R109). -/

namespace Sys2Proof.Machine

theorem exec_par_busy (data gen : List Sym) {s : State} (h : s.busy) :
    exec (.par data gen) s = .next (s.answered (parResponse data gen)) :=
  exec_busy (.par data gen) h

/-! ### The parity bit -/

/-- The parity bit as a number (42_parity R105). -/
theorem parityBit_toNat (D : List Bit) : (parityBit D).toNat = D.count true % 2 := by
  rw [parityBit]
  obtain h | h := Nat.mod_two_eq_zero_or_one (D.count true) <;> rw [h] <;> rfl

theorem parityBit_eq_false_iff (D : List Bit) : parityBit D = false ↔ D.count true % 2 = 0 := by
  rw [← Bool.toNat_eq_zero, parityBit_toNat]

/-- The ones of a bit string are its symbols `0x31`. -/
theorem count_true_bitsOf {data : List Sym} (hd : BitString data) :
    (bitsOf data).count true = data.count 0x31#8 := by
  rw [bitsOf_eq hd, List.count, List.countP_map, List.count]
  exact List.countP_congr fun c _ => by simp

/-- Settles O30: the result is the count of `0x31` modulo 2, so adding it makes the count even. -/
theorem parMakesTheCountEven : Obligations.ParMakesTheCountEven := by
  intro s data gen hs hd
  refine ⟨parityBit (bitsOf data), ?_, ?_, ?_⟩
  · rw [exec_par_busy data gen hs, parResponse_ok gen hd]
    rfl
  · rw [parityBit_eq_false_iff, count_true_bitsOf hd]
  · rw [parityBit_toNat, count_true_bitsOf hd]
    omega

/-! ### The data check and the empty data -/

/-- Settles O29: data that is no bit string raises INVALID_INPUT, whose byte is 3. -/
theorem parChecksItsData : Obligations.ParChecksItsData := by
  intro s data gen hs hbad
  rw [exec_par_busy data gen hs, parResponse_bad_data gen hbad]
  rfl

/-- Settles O31: the empty data is a bit string that holds no ones, and 0 is even. -/
theorem parOfNoDataIsZero : Obligations.ParOfNoDataIsZero := by
  intro s gen hs
  rw [exec_par_busy [] gen hs, parResponse_ok gen bitString_nil, (parityBit_eq_false_iff (bitsOf [])).2 rfl]
  rfl

end Sys2Proof.Machine
end

section
/-! Proofs for 43_hamming: the length gate (R113) and the alphabet check (R114), the codeword of every four data bits
(R115, R117), and the encoder without working state (R116). -/

namespace Sys2Proof.Machine

theorem exec_ham74_busy (data gen : List Sym) {s : State} (h : s.busy) :
    exec (.ham74 data gen) s = .next (s.answered (ham74Response data gen)) :=
  exec_busy (.ham74 data gen) h

/-! ### The checks -/

/-- Settles O33: a wrong length raises INVALID_LENGTH, whose byte is 2. -/
theorem hammingLengthGateComesFirst : Obligations.HammingLengthGateComesFirst := by
  intro s data gen hs hlen
  rw [exec_ham74_busy data gen hs, ham74Response_bad_length gen hlen]
  rfl

/-- Settles O34: past the length gate, data that is no bit string raises INVALID_INPUT, whose byte is 3. -/
theorem hammingChecksItsFourSymbols : Obligations.HammingChecksItsFourSymbols := by
  intro s data gen hs hlen hbad
  rw [exec_ham74_busy data gen hs, ham74Response_bad_data gen hlen hbad]
  rfl

/-! ### The codeword -/

/-- The rendering of bits is a bit string (30_encoding R62). -/
theorem bitString_render (bs : List Bit) : BitString (render bs) := by
  intro c hc
  obtain ⟨b, -, rfl⟩ := List.mem_map.1 hc
  cases b
  · exact .inl rfl
  · exact .inr rfl

/-- A rendered bit reads back as itself. -/
theorem bitOf_symOfBit (b : Bit) : bitOf (symOfBit b) = b := by
  cases b <;> rfl

/-- The response to four data bits, in operand order, is their codeword. -/
theorem ham74Response_render (d0 d1 d2 d3 : Bit) (gen : List Sym) :
    ham74Response (render [d0, d1, d2, d3]) gen = okWith (hammingWord d0 d1 d2 d3) := by
  have hok : ham74Response (render [d0, d1, d2, d3]) gen = okWith (hammingWord (bitOf (symOfBit d0))
      (bitOf (symOfBit d1)) (bitOf (symOfBit d2)) (bitOf (symOfBit d3))) :=
    ham74Response_ok gen (bitString_render [d0, d1, d2, d3])
  simpa only [bitOf_symOfBit] using hok

/-! ### No working state -/

/-- The decoder reads back the instruction of an encoded request (30_encoding R57). -/
theorem decode_encode (i : Instr) : decode (encode i) = .instr i := by
  rw [decode_eq]
  cases i <;> rfl

/-- On the request of an instruction the working step is that of its own unit. -/
theorem workStep_encode (i : Instr) (w : Work) : workStep (encode i) w = unitStep i w := by
  rw [workStep, decode_encode]

/-- The unit of HAM74 has no step that could leave the empty working state (43_hamming R116). -/
theorem workAfter_ham74 (data gen : List Sym) (m : Nat) : workAfter (encode (.ham74 data gen)) m = .empty := by
  induction m with
  | zero => rfl
  | succ m ih => rw [workAfter, workStep_encode, ih, unitStep]

/-- Settles O35: the operand is the rendering of its four bits, and no number of steps leaves a working state. -/
theorem hammingCodeword : Obligations.HammingCodeword := by
  refine ⟨fun s d0 d1 d2 d3 gen hs => ?_, workAfter_ham74⟩
  have hexec : exec (.ham74 (render [d0, d1, d2, d3]) gen) s =
      .next (s.answered (okWith (hammingWord d0 d1 d2 d3))) := by
    rw [exec_ham74_busy _ gen hs, ham74Response_render]
  exact hexec

end Sys2Proof.Machine
end

section
/-! Proofs for 44_luhn: the digit check (R123), and the classification by the sum of the digits, read index by index
with the transformed digits taken from a table (R124 to R127). -/

namespace Sys2Proof.Machine

theorem exec_luhn_busy (data gen : List Sym) {s : State} (h : s.busy) :
    exec (.luhn data gen) s = .next (s.answered (luhnResponse data gen)) :=
  exec_busy (.luhn data gen) h

/-! ### Digits -/

theorem digitOf_eq {c : Sym} (h : 0x30 ≤ c.toNat) : digitOf c = c.toNat - 0x30 := by
  have hle : 0x30#8 ≤ c := BitVec.le_def.2 h
  exact BitVec.toNat_sub_of_le hle

/-- R125's transform of a digit, read off its table: a double above 9 loses 9. -/
theorem luhnTerm_of_digit (j : Nat) {x : Nat} (hx : x ≤ 9) :
    luhnTerm j x = if j % 2 = 0 then [0, 2, 4, 6, 8, 1, 3, 5, 7, 9].getD x 0 else x := by
  rw [luhnTerm]
  congr 1
  interval_cases x <;> rfl

/-! ### The sum, index by index -/

/-- The leftmost digit stands farthest from the right, and takes its place in front of the other digits without moving
them: positions are counted from the right (44_luhn R124). -/
theorem luhnSum_cons (c : Sym) (data : List Sym) :
    luhnSum (c :: data) = luhnSum data + luhnTerm (data.length + 1) (digitOf c) := by
  have htail : ∀ m ∈ List.range data.length,
      luhnTerm (m + 1) (digitFromRight (c :: data) (m + 1)) = luhnTerm (m + 1) (digitFromRight data (m + 1)) := by
    intro m hm
    have hidx : data.length + 1 - (m + 1) = data.length - (m + 1) + 1 := by
      have := List.mem_range.1 hm
      omega
    rw [digitFromRight, digitFromRight, List.length_cons, hidx, List.getElem?_cons_succ]
  have hhead : digitFromRight (c :: data) (data.length + 1) = digitOf c := by
    simp [digitFromRight]
  rw [luhnSum, List.length_cons, List.sum_range_succ, hhead, List.map_congr_left htail, luhnSum]

/-- The digit at index `i` from the left, read off its symbol. -/
def indexedDigit (data : List Sym) (i : Nat) : Nat := (data[i]?.getD 0x30#8).toNat - 0x30

theorem indexedDigit_le {data : List Sym} (hd : DigitString data) {i : Nat} (hi : i < data.length) :
    indexedDigit data i ≤ 9 := by
  have hc : data[i].toNat ≤ 0x39 := (hd _ (List.getElem_mem hi)).2
  rw [indexedDigit, List.getElem?_eq_getElem hi, Option.getD_some]
  omega

/-- What the symbol at index `i` adds to the sum: its digit, at position `n - i` from the right (44_luhn R124).
`luhnSum_eq` ties it to the model's sum. -/
def indexedTerm (data : List Sym) (i : Nat) : Nat := luhnTerm (data.length - i) (indexedDigit data i)

/-- The model's sum, taken from the right, is the sum over all indices of the data. -/
theorem luhnSum_eq {data : List Sym} (hd : DigitString data) :
    luhnSum data = ((List.range data.length).map (indexedTerm data)).sum := by
  induction data with
  | nil => rfl
  | cons c data ih =>
    obtain ⟨hc, hrest⟩ := List.forall_mem_cons.1 hd
    have hhead : indexedTerm (c :: data) 0 = luhnTerm (data.length + 1) (digitOf c) := by
      rw [digitOf_eq hc.1]
      rfl
    have htail : indexedTerm (c :: data) ∘ Nat.succ = indexedTerm data := by
      funext i
      simp [indexedTerm, indexedDigit]
    rw [luhnSum_cons, ih hrest, List.length_cons, List.range_succ_eq_map, List.map_cons, List.map_map, List.sum_cons,
      hhead, htail, Nat.add_comm]

/-- Settles O38: `luhnSum_eq` turns the sum from the right into the sum over indices, `luhnTerm_of_digit` each term. -/
theorem luhnClassifiesByDigitSum : Obligations.LuhnClassifiesByDigitSum := by
  intro s data gen hs hd
  have hterm : ∀ i ∈ List.range data.length, indexedTerm data i =
      if (data.length - i) % 2 = 0 then [0, 2, 4, 6, 8, 1, 3, 5, 7, 9].getD (indexedDigit data i) 0
      else indexedDigit data i := fun i hi =>
    luhnTerm_of_digit (data.length - i) (indexedDigit_le hd (List.mem_range.1 hi))
  rw [exec_luhn_busy data gen hs, luhnResponse_ok gen hd, luhnSum_eq hd, List.map_congr_left hterm]
  rfl

/-! ### The digit check -/

/-- Settles O37: data that is no digit string raises INVALID_INPUT, whose byte is 3. -/
theorem luhnChecksItsDigits : Obligations.LuhnChecksItsDigits := by
  intro s data gen hs hbad
  rw [exec_luhn_busy data gen hs, luhnResponse_bad_data gen hbad]
  rfl

end Sys2Proof.Machine
end

section
/-! Proofs for 60_exceptions: which statuses each operation can return (R138), what an error leaves behind (R140), and
the dispatch with the first of several errors (R141). -/

namespace Sys2Proof.Machine

/-! ### The dispatch -/

/-- `CORE(REQ)`, by the two fields of the command byte (60_exceptions R141). -/
theorem coreResponse_dispatch (r : Request) :
    coreResponse r =
      if r.op.toNat / 8 ≠ 0 ∨ r.op.toNat % 8 > 4 then ⟨0x04#8, []⟩
      else if r.op.toNat % 8 = 0 then crcResponse r.data r.gen
      else if r.op.toNat % 8 = 1 then csumResponse r.data r.gen
      else if r.op.toNat % 8 = 2 then parResponse r.data r.gen
      else if r.op.toNat % 8 = 3 then ham74Response r.data r.gen
      else luhnResponse r.data r.gen := by
  by_cases hop : 4 < r.op.toNat
  · have hbyte : r.op.toNat / 8 ≠ 0 ∨ r.op.toNat % 8 > 4 := by omega
    rw [coreResponse_illegal hop, if_pos hbyte]
    rfl
  · rw [coreResponse, decode_eq]
    generalize r.op.toNat = n at hop
    interval_cases n <;> rfl

/-- Settles O15: the answer is `CORE(REQ)`, dispatched by `coreResponse_dispatch`; which error comes first is said by
the laws of each operation's checks. -/
theorem dispatchFollowsTheErrorPriority : Obligations.DispatchFollowsTheErrorPriority := by
  intro s s' r he hr
  have hans : ∀ {x : Response}, coreResponse r = x → step s = .next (s'.answered x) := by
    rintro x rfl
    exact step_complete_latched he hr
  obtain ⟨hcrc, hcsum, hpar, hham, hluhn, -⟩ := commandByteSelectsOperation r
  refine ⟨hans (coreResponse_dispatch r), fun hop hbad => ?_, fun hop hl hg hbad => ?_, fun hop hbad => ?_,
    fun hop hlen => ?_, fun hop hlen hbad => ?_, fun hop hbad => ?_⟩
  · exact hans ((coreResponse_instr (hcrc hop)).trans (crcResponse_bad_generator r.data hbad))
  · exact hans ((coreResponse_instr (hcrc hop)).trans (crcResponse_bad_data hl hg hbad))
  · rcases hop with hop | hop
    · exact hans ((coreResponse_instr (hcsum hop)).trans (csumResponse_bad_data r.gen hbad))
    · exact hans ((coreResponse_instr (hpar hop)).trans (parResponse_bad_data r.gen hbad))
  · exact hans ((coreResponse_instr (hham hop)).trans (ham74Response_bad_length r.gen hlen))
  · exact hans ((coreResponse_instr (hham hop)).trans (ham74Response_bad_data r.gen hlen hbad))
  · exact hans ((coreResponse_instr (hluhn hop)).trans (luhnResponse_bad_data r.gen hbad))

/-! ### The cause table -/

/-- The row of an operation in R138's table. -/
def InCauseRow : Instr → Byte → Prop
  | .crc _ _, st => st = 0x00#8 ∨ st = 0x01#8 ∨ st = 0x03#8
  | .csum _ _, st | .par _ _, st | .luhn _ _, st => st = 0x00#8 ∨ st = 0x03#8
  | .ham74 _ _, st => st = 0x00#8 ∨ st = 0x02#8 ∨ st = 0x03#8

/-- The statuses of an operation with the one check `Q`, which raises INVALID_INPUT. -/
theorem status_of_check {Q : Prop} {x : Response} {bits : List Bit} (hok : Q → x = okWith bits)
    (hbad : ¬ Q → x = raise .invalidInput) : x.status = 0x00#8 ∨ x.status = 0x03#8 := by
  by_cases hQ : Q
  · rw [hok hQ]
    exact .inl rfl
  · rw [hbad hQ]
    exact .inr rfl

theorem crcResponse_inCauseRow (data gen : List Sym) :
    InCauseRow (.crc data gen) (crcResponse data gen).status := by
  by_cases hgen : 2 ≤ gen.length ∧ BitString gen
  · obtain ⟨hl, hg⟩ := hgen
    exact (status_of_check (crcResponse_ok hl hg) (crcResponse_bad_data hl hg)).imp_right .inr
  · have hbad : gen.length < 2 ∨ ¬ BitString gen := by
      rwa [not_and_or, not_le] at hgen
    rw [crcResponse_bad_generator data hbad]
    exact .inr (.inl rfl)

theorem ham74Response_inCauseRow (data gen : List Sym) :
    InCauseRow (.ham74 data gen) (ham74Response data gen).status := by
  by_cases hl : data.length = 4
  · obtain ⟨c0, c1, c2, c3, rfl⟩ := List.length_eq_four.1 hl
    exact (status_of_check (ham74Response_ok gen) (ham74Response_bad_data gen hl)).imp_right .inr
  · rw [ham74Response_bad_length gen hl]
    exact .inr (.inl rfl)

/-- No operation answers a status outside its row. -/
theorem respond_inCauseRow (i : Instr) : InCauseRow i (respond i).status := by
  cases i with
  | crc data gen => exact crcResponse_inCauseRow data gen
  | csum data gen => exact status_of_check (csumResponse_ok gen) (csumResponse_bad_data gen)
  | par data gen => exact status_of_check (parResponse_ok gen) (parResponse_bad_data gen)
  | ham74 data gen => exact ham74Response_inCauseRow data gen
  | luhn data gen => exact status_of_check (luhnResponse_ok gen) (luhnResponse_bad_data gen)

/-- An error says no more than its code. -/
theorem Answers.result_of_error {P : Nat → Prop} {x : Response} (h : Answers P x) (hx : x.status ≠ 0x00#8) :
    x.result = [] := by
  cases h with
  | ok => exact absurd rfl hx
  | error => rfl

/-! The operands below make each status of a row occur. `0x78` is neither a bit nor a digit. -/

theorem crcResponse_each_status :
    ∀ st ∈ [0x00#8, 0x01#8, 0x03#8], ∃ data gen, (crcResponse data gen).status = st := by
  simp only [List.forall_mem_cons]
  exact ⟨⟨[], [0x31#8, 0x31#8], by decide⟩, ⟨[], [], by decide⟩, ⟨[0x78#8], [0x31#8, 0x31#8], by decide⟩,
    List.forall_mem_nil _⟩

theorem ham74Response_each_status :
    ∀ st ∈ [0x00#8, 0x02#8, 0x03#8], ∃ data, (ham74Response data []).status = st := by
  simp only [List.forall_mem_cons]
  exact ⟨⟨[0x31#8, 0x30#8, 0x31#8, 0x31#8], by decide⟩, ⟨[], by decide⟩,
    ⟨[0x31#8, 0x30#8, 0x78#8, 0x31#8], by decide⟩, List.forall_mem_nil _⟩

theorem csum_par_luhn_each_status :
    ∀ st ∈ [0x00#8, 0x03#8], ∃ data, (csumResponse data []).status = st ∧ (parResponse data []).status = st ∧
      (luhnResponse data []).status = st := by
  simp only [List.forall_mem_cons]
  exact ⟨⟨[], by decide⟩, ⟨[0x78#8], by decide⟩, List.forall_mem_nil _⟩

/-- Settles O43: in BUSY the answer is `respond i`, whose status stays in its row; the operands above give each status
of a row. -/
theorem statusCauseTable : Obligations.StatusCauseTable := by
  refine ⟨fun s i hs => ?_, fun r => coreResponse_illegal, fun s hs => ⟨fun st hst => ?_, fun st hst => ?_,
    fun st hst => ?_⟩⟩
  · refine ⟨respond i, exec_busy i hs, (respond_answers i).result_of_error, ?_⟩
    have hrow : InCauseRow i (respond i).status := respond_inCauseRow i
    cases i <;> exact hrow
  · obtain ⟨data, gen, hx⟩ := crcResponse_each_status st hst
    exact ⟨data, gen, _, exec_crc_busy data gen hs, hx⟩
  · obtain ⟨data, hcsum, hpar, hluhn⟩ := csum_par_luhn_each_status st hst
    exact ⟨⟨data, _, exec_csum_busy data [] hs, hcsum⟩, ⟨data, _, exec_par_busy data [] hs, hpar⟩,
      data, _, exec_luhn_busy data [] hs, hluhn⟩
  · obtain ⟨data, hx⟩ := ham74Response_each_status st hst
    exact ⟨data, _, exec_ham74_busy data [] hs, hx⟩

/-! ### An error response -/

/-- An error of `CORE(REQ)` is its status with an empty result (60_exceptions R140). -/
theorem coreResponse_of_error {r : Request} (h : (coreResponse r).status ≠ 0x00#8) :
    coreResponse r = ⟨(coreResponse r).status, []⟩ := by
  by_cases hop : r.op.toNat ≤ 4
  · obtain ⟨i, hi⟩ := (decode_instr_iff r).2 hop
    rw [coreResponse_instr hi] at h ⊢
    rw [← (respond_answers i).result_of_error h]
  · rw [coreResponse_illegal (not_le.1 hop)]
    rfl

theorem State.answered_selected (x : Response) {s : State} {c : Inst} (h : s.selected = some c) :
    (s.answered x).selected = some (c.answer x) := by
  rw [State.answered_eq x h]
  exact State.setSel_same (c.answer x) h

/-- ACK takes an answered instance, whatever the answer, back to IDLE with nothing held (60_exceptions R145). -/
theorem ackSel_answered (x : Response) {s : State} {c : Inst} (h : s.selected = some c) :
    ∃ t d, ackSel (s.answered x) = .next t ∧ t.selected = some d ∧ d.phase = .idle ∧ d.req = none ∧
      d.rsp = none := by
  have hsel : (s.answered x).selected = some (c.answer x) := State.answered_selected x h
  exact ⟨_, _, ackSel_next.2 ⟨c.answer x, hsel, rfl, rfl⟩, State.setSel_same _ hsel, rfl, rfl, rfl⟩

/-- Settles O46: COMPLETE answers `CORE(REQ)`, which `coreResponse_of_error` writes out, and `ackSel_answered`. -/
theorem errorGivesNoResultAndAckReturnsToIdle : Obligations.ErrorGivesNoResultAndAckReturnsToIdle := by
  intro s r hr herr
  rw [← coreResponse_of_error herr]
  refine ⟨completeSel_latched hr, ?_⟩
  obtain ⟨c, hc, -, -⟩ := hr
  exact ackSel_answered (coreResponse r) hc

end Sys2Proof.Machine
end

section
/-! Proofs for 70_reset: what the reset of an instance does (R155). -/

namespace Sys2Proof.Machine

/-- Settles O4: by `resetSel_next`, reset has a move at every instance the platform has, with no condition on its
phase. -/
theorem resetEventClearsInstance : Obligations.ResetEventClearsInstance := by
  intro s s' c he hc
  calc
    step s = resetSel s' := step_some he
    _ = .next ((s'.setSel Inst.reset).saw .reset) := resetSel_next.2 ⟨c, hc, rfl⟩

end Sys2Proof.Machine
end

section
/-! Proofs for the two invariants (10_state R21 to R23, 20_memory R48, 70_reset R164): every move of an instance keeps
both, so every step does, and so does every run. -/

namespace Sys2Proof.Machine

/-! ### What an instance that fits together holds, by its phase -/

theorem Inst.inv_idle {c : Inst} (hp : c.phase = .idle) :
    c.Inv ↔ c.req = none ∧ c.rsp = none ∧ c.work = .empty := by
  rw [Inst.Inv, hp]

theorem Inst.inv_busy {c : Inst} (hp : c.phase = .busy) :
    c.Inv ↔ ∃ r, c.req = some r ∧ r.admitted = true ∧ c.rsp = none ∧ ∃ m, c.work = workAfter r m := by
  rw [Inst.Inv, hp]

theorem Inst.inv_done {c : Inst} (hp : c.phase = .done) :
    c.Inv ↔ ∃ r, c.req = some r ∧ r.admitted = true ∧ c.rsp = some (coreResponse r) ∧ c.work = .empty := by
  rw [Inst.Inv, hp]

/-! ### A move keeps both invariants -/

/-- An instance that fits together still does after its move. -/
theorem Action.Moves.keeps_inv {a : Action} {c c' : Inst} {l : List Answer} (h : a.Moves c c' l) (hc : c.Inv) :
    c'.Inv := by
  cases h with
  | @issue r _ hp hr =>
    obtain ⟨-, hrsp, hwork⟩ := (Inst.inv_idle hp).1 hc
    exact ⟨r, rfl, hr, hrsp, 0, hwork⟩
  | read _ => exact hc
  | readRsp _ _ => exact hc
  | ack hp =>
    obtain ⟨-, -, -, -, hwork⟩ := (Inst.inv_done hp).1 hc
    exact (Inst.inv_idle rfl).2 ⟨rfl, rfl, hwork⟩
  | @work _ r hp hr =>
    obtain ⟨r', hr', hadm, hrsp, m, hwork⟩ := (Inst.inv_busy hp).1 hc
    obtain rfl : r' = r := Option.some.inj (hr'.symm.trans hr)
    have hstep : workStep r' c.work = workAfter r' (m + 1) := congrArg (workStep r') hwork
    refine (Inst.inv_busy ?_).2 ⟨r', hr, hadm, hrsp, m + 1, hstep⟩
    exact hp
  | @complete _ r hp hr =>
    obtain ⟨r', hr', hadm, -⟩ := (Inst.inv_busy hp).1 hc
    obtain rfl : r' = r := Option.some.inj (hr'.symm.trans hr)
    exact ⟨r', hr, hadm, rfl, rfl⟩
  | reset => exact Inst.reset_inv

/-- A read, of the phase or of the response, leaves agreement. -/
theorem Follow.Agrees.read {f : Follow} {c : Inst} (h : f.Agrees c) {x : Answer} (hx : c.read = .next x) :
    (f.next x).Agrees c := by
  obtain ⟨-, y, hy, rfl⟩ | ⟨-, rfl⟩ := Inst.read_next.1 hx
  · exact h.response hy
  · exact h

/-- What a host knows goes on agreeing with its instance through a move of the instance (70_reset R164). -/
theorem Action.Moves.keeps_agrees {a : Action} {c c' : Inst} {l : List Answer} (h : a.Moves c c' l) (hc : c.Inv)
    {f : Follow} (hf : f.Agrees c) : (l.foldl Follow.next f).Agrees c' := by
  cases h with
  | issue hp _ => exact hf.issued ((Inst.inv_idle hp).1 hc).1 rfl
  | read hx => exact hf.read hx
  | readRsp _ hx => exact hf.response hx
  | ack hp =>
    obtain ⟨r, hr, -, hx, -⟩ := (Inst.inv_done hp).1 hc
    exact hf.acked hr hx rfl
  | work _ _ => exact hf
  | complete hp _ =>
    obtain ⟨-, -, -, hnone, -⟩ := (Inst.inv_busy hp).1 hc
    obtain ⟨hcur, hgot, hrest⟩ := hf
    refine ⟨hcur, fun x hx => ?_, hrest⟩
    cases hnone.symm.trans (hgot x hx)
  | reset => exact Follow.start_agrees rfl

/-! ### The platform's update by a move -/

theorem State.Inv.moved {s : State} (h : s.Inv) {c : Inst} (hc : c.Inv) (l : List Answer) : (s.moved c l).Inv :=
  h.setSel hc

/-- The answers of a move go to the host of the selected instance, and to no other. -/
theorem State.follow_moved (s : State) (c : Inst) (l : List Answer) (k : Nat) :
    (s.moved c l).follow k = if k = s.sel then l.foldl Follow.next (s.follow k) else s.follow k := by
  unfold State.follow State.seenAt State.moved
  by_cases h : k = s.sel
  · simp [h, List.filter_map, Function.comp_def]
  · simp [h, List.filter_map, Function.comp_def, beq_false_of_ne (Ne.symm h)]

/-- A step is a pause, or the move of one instance. -/
theorem step_moves {s t : State} (h : step s = .next t) :
    t = s ∨ ∃ (a : Action) (s' : State) (c c' : Inst) (l : List Answer), s'.insts = s.insts ∧ s'.seen = s.seen ∧
      s'.selected = some c ∧ a.Moves c c' l ∧ t = s'.moved c' l := by
  obtain ⟨-, rfl⟩ | ⟨a, s', he, hp⟩ := step_cases h
  · exact .inl rfl
  · obtain ⟨c, c', l, hc, hmove, rfl⟩ := perform_next_iff.1 hp
    obtain ⟨hinsts, hseen⟩ := nextEvent_keeps he
    exact .inr ⟨a, s', c, c', l, hinsts, hseen, hc, hmove, rfl⟩

/-- Settles O58: a step is the move of one instance, and `Action.Moves.keeps_inv`. -/
theorem stepKeepsInstancesConsistent : Obligations.StepKeepsInstancesConsistent := by
  intro s t hs h
  obtain rfl | ⟨a, s', c, c', l, hinsts, -, hc, hmove, rfl⟩ := step_moves h
  · exact hs
  · have hs' : s'.Inv := (State.inv_congr hinsts).2 hs
    exact hs'.moved (hmove.keeps_inv (hs'.selected hc)) l

/-- Settles O59: only the host of the instance that moves learns anything, and `Action.Moves.keeps_agrees`. -/
theorem stepKeepsWhatWasSeenConsistent : Obligations.StepKeepsWhatWasSeenConsistent := by
  intro s t hs hseen h
  obtain rfl | ⟨a, s', c, c', l, hinsts, heq, hc, hmove, rfl⟩ := step_moves h
  · exact hseen
  have hs' : s'.Inv := (State.inv_congr hinsts).2 hs
  have hseen' : s'.SeenInv := by
    intro k d hd
    rw [hinsts] at hd
    rw [State.follow_congr heq]
    exact hseen k d hd
  refine hseen'.of_set rfl (fun k hk => ?_) ?_
  · rw [State.follow_moved, if_neg hk]
  · rw [State.follow_moved, if_pos rfl]
    exact hmove.keeps_agrees (hs'.selected hc) (hseen' _ c hc)

/-! ### Reset and runs -/

/-- Settles O3: every instance after reset is `Inst.reset`, and nothing was seen. -/
theorem resetMeetsBothInvariants : Obligations.ResetMeetsBothInvariants := by
  have hall : ∀ c ∈ State.reset.insts, c = Inst.reset := by
    rw [State.reset_insts]
    exact fun c => List.eq_of_mem_replicate
  refine ⟨⟨?_, fun c hc => ?_⟩, fun k c hc => ?_⟩
  · rw [State.reset_insts, List.length_replicate]
  · rw [hall c hc]
    exact Inst.reset_inv
  · rw [hall c (List.mem_of_getElem? hc)]
    exact Follow.start_agrees rfl

/-- A run goes on from where its first step leads. -/
theorem run_succ {s t : State} (h : step s = .next t) (m : Nat) :
    Host.Core.run core (m + 1) s = Host.Core.run core m t := by
  have hcore : core.step s = .next t := h
  simp only [Host.Core.run, hcore]

/-- A run stops where a step faults. -/
theorem run_succ_fault {s : State} {r : Fault} (h : step s = .fault r) (m : Nat) :
    Host.Core.run core (m + 1) s = .fault r := by
  have hcore : core.step s = .fault r := h
  simp only [Host.Core.run, hcore]

/-- A run that does not stop takes its first step. -/
theorem run_succ_next {s u : State} {m : Nat} (h : Host.Core.run core (m + 1) s = .next u) :
    ∃ t, step s = .next t ∧ Host.Core.run core m t = .next u := by
  cases hs : step s with
  | next t => exact ⟨t, rfl, (run_succ hs m).symm.trans h⟩
  | fault r => cases (run_succ_fault hs m).symm.trans h
  | refused r =>
    have hcore : core.step s = .refused r := hs
    simp [Host.Core.run, hcore] at h

/-- What every step keeps, every run keeps. -/
theorem run_keeps {P : State → Prop} (hstep : ∀ s t, P s → step s = .next t → P t) {m : Nat} {s t : State} (hs : P s)
    (h : Host.Core.run core m s = .next t) : P t := by
  induction m generalizing s with
  | zero => exact Host.Outcome.next.inj h ▸ hs
  | succ m ih =>
    obtain ⟨u, hu, hrun⟩ := run_succ_next h
    exact ih (hstep s u hs hu) hrun

/-- At an instance that holds no request, and with none acknowledged unread, the pairs are the requests issued, each
with its own response (70_reset R164). -/
theorem Follow.Agrees.pairs_eq {f : Follow} {c : Inst} (h : f.Agrees c) (hr : c.req = none) (hu : f.unread = []) :
    f.pairs = f.issued.map fun r => (r, coreResponse r) := by
  obtain ⟨hcur, -, hown, hissued⟩ := h
  have hissued' : f.issued = f.pairs.map Prod.fst := by
    rw [hissued hu, hcur, hr, Option.toList_none, List.append_nil]
  calc
    f.pairs = f.pairs.map id := (List.map_id f.pairs).symm
    _ = f.pairs.map fun p => (p.1, coreResponse p.1) :=
      List.map_congr_left fun p hp => Prod.ext rfl (hown p hp)
    _ = f.issued.map fun r => (r, coreResponse r) := by
      rw [hissued', List.map_map]
      rfl

/-- Settles O57: a run keeps both invariants, an IDLE instance holds no request, and `Follow.Agrees.pairs_eq`. -/
theorem endedRunObservesOwnResponses : Obligations.EndedRunObservesOwnResponses := by
  intro s t k m hs hseen hrun ⟨_, ⟨c, hc, hidle⟩, hunread⟩
  obtain ⟨ht, htseen⟩ : t.Inv ∧ t.SeenInv :=
    run_keeps (P := fun u => u.Inv ∧ u.SeenInv)
      (fun u v ⟨hu, huseen⟩ huv =>
        ⟨stepKeepsInstancesConsistent u v hu huv, stepKeepsWhatWasSeenConsistent u v hu huseen huv⟩) ⟨hs, hseen⟩ hrun
  have hreq : c.req = none := ((Inst.inv_idle hidle).1 (ht.2 c (List.mem_of_getElem? hc))).1
  have hagrees : (t.follow k).Agrees c := htseen k c hc
  exact ⟨hagrees.1.trans hreq, hagrees.pairs_eq hreq hunread⟩

end Sys2Proof.Machine
end

section
/-! Proofs for 30_encoding: decoding and encoding (R55 to R59), the symbol classes (R62), and the written form of a
request, which reads back symbol by symbol (R71). -/

namespace Sys2Proof.Machine

/-! ### Decoding and encoding -/

/-- A request that decodes to an instruction is its encoding: the byte is the one of the instruction's row, and both
operands are kept. -/
theorem encode_of_decode {r : Request} {i : Instr} (h : decode r = .instr i) : encode i = r := by
  obtain ⟨op, data, gen⟩ := r
  rw [decode_eq] at h
  split_ifs at h
  all_goals
    cases h
    simp only [encode, opByte, Instr.data, Instr.gen, Request.mk.injEq, and_true]
    exact (BitVec.eq_of_toNat_eq ‹op.toNat = _›).symm

/-- Settles O9: `decode_encode`, and `encode_of_decode` the other way. -/
theorem decodeAndEncodeAreInverse : Obligations.DecodeAndEncodeAreInverse :=
  ⟨decode_encode, fun _ _ => encode_of_decode⟩

/-- Settles O8: closed words, decoded by evaluation. -/
theorem writtenOutWordsDecode : Obligations.WrittenOutWordsDecode := by
  unfold Obligations.WrittenOutWordsDecode
  decide

/-! ### Symbol classes -/

/-- The value of a symbol that is a bit (30_encoding R62). -/
theorem bitOf_toNat {c : Sym} (h : isBit c = true) : (bitOf c).toNat = c.toNat - 0x30 := by
  obtain rfl | rfl := (isBit_iff c).1 h <;> rfl

/-- Settles O12: the laws of both classes, with the value of a digit from `digitOf_eq`. -/
theorem symbolClassesAndValues : Obligations.SymbolClassesAndValues := by
  refine ⟨fun c => ⟨isBit_iff c, isDigit_iff c, bitOf_toNat, fun h => ?_⟩,
    fun s => ⟨isBitString_iff s, isDigitString_iff s⟩, rfl, rfl⟩
  obtain ⟨hlow, hhigh⟩ := (isDigit_iff c).1 h
  have hval : digitOf c = c.toNat - 0x30 := digitOf_eq hlow
  exact ⟨hval, by omega⟩

/-! ### Strings of the written form -/

/-- A printable symbol stands for itself. -/
theorem scanString_printable {c : Sym} (hquote : c ≠ 0x22#8) (hslash : c ≠ 0x5C#8) (rest : List Char) :
    scanString (Char.ofNat c.toNat :: rest) .plain = consSym c (scanString rest .plain) := by
  have hvalid : c.toNat.isValidChar := .inl (by have := c.isLt; omega)
  have hcode : (Char.ofNat c.toNat).toNat = c.toNat := (Char.toNat_ofNat c.toNat).trans (if_pos hvalid)
  have hne : ∀ {d : Char} {e : Sym}, d.toNat = e.toNat → c ≠ e → Char.ofNat c.toNat ≠ d := by
    rintro d e hde hce rfl
    exact hce (BitVec.eq_of_toNat_eq (hcode.symm.trans hde))
  rw [scanString_plain (hne (e := 0x22#8) rfl hquote) (hne (e := 0x5C#8) rfl hslash) (by rw [hcode]; exact c.isLt),
    hcode, BitVec.ofNat_toNat, BitVec.setWidth_eq]

/-- Each symbol reads back from its written form: itself, or one of the escapes `\"`, `\\` and `\xHH`. -/
theorem scanString_symText (c : Sym) (rest : List Char) :
    scanString (symText c ++ rest) .plain = consSym c (scanString rest .plain) := by
  unfold symText
  split_ifs with hquote hslash hprint
  · rw [hquote]
    exact scanString_escapedQuote rest
  · rw [hslash]
    exact scanString_escapedBackslash rest
  · exact scanString_printable hquote hslash rest
  · exact scanString_escapedByte (hexByte_hexPair c) rest

/-- A written string reads back up to its closing quote. -/
theorem scanString_flatMap_symText (s : List Sym) (rest : List Char) :
    scanString (s.flatMap symText ++ '"' :: rest) .plain = some (s, rest) := by
  induction s with
  | nil => exact scanString_quote rest
  | cons c s ih => rw [List.flatMap_cons, List.append_assoc, scanString_symText, ih, consSym]

theorem quoted_stringText (s : List Sym) (rest : List Char) :
    quoted (' ' :: (stringText s ++ rest)) = some (s, rest) := by
  have hscan : quoted (' ' :: (stringText s ++ rest)) = scanString (s.flatMap symText ++ ['"'] ++ rest) .plain := rfl
  rw [hscan, List.append_assoc]
  exact scanString_flatMap_symText s rest

/-! ### Lines -/

/-- One string to the end of the line: GEN is empty. -/
theorem operands_one (op : Byte) (data : List Sym) :
    operands op false (' ' :: stringText data) = .request ⟨op, data, []⟩ := by
  have hdata : quoted (' ' :: stringText data) = some (data, []) := by
    simpa only [List.append_nil] using quoted_stringText data []
  rw [operands, hdata]
  rfl

/-- Two strings with a comma between them: DATA and GEN. -/
theorem operands_two (op : Byte) (needsGen : Bool) (data gen : List Sym) :
    operands op needsGen (' ' :: (stringText data ++ [',', ' '] ++ stringText gen)) = .request ⟨op, data, gen⟩ := by
  have hgen : quoted (' ' :: stringText gen) = some (gen, []) := by
    simpa only [List.append_nil] using quoted_stringText gen []
  have hcomma : afterComma ([',', ' '] ++ stringText gen) = some (' ' :: stringText gen) := rfl
  rw [List.append_assoc, operands, quoted_stringText]
  simp only [hcomma, hgen]
  rfl

/-- Behind `.req` stands the command byte in two hexadecimal digits, then the operands. -/
theorem rawForm_of_hexByte {a b : Char} {op : Byte} (h : hexByte a b = some op) (rest : List Char) :
    rawForm (' ' :: '0' :: 'x' :: a :: b :: ',' :: rest) = operands op false rest := by
  simp [rawForm, skipBlanks, isBlank, afterComma, h]

/-- The raw line reads back, whatever the byte and the symbols. -/
theorem assemble_rawText (r : Request) : assemble (rawText r) = .request r := by
  have hline : assemble (rawText r) = operands r.op false
      (' ' :: (stringText r.data ++ [',', ' '] ++ stringText r.gen)) :=
    rawForm_of_hexByte (hexByte_hexPair r.op) _
  rw [hline, operands_two]

/-- The line that writes a request reads back: each mnemonic gives its own byte, and all else is raw. -/
theorem assemble_requestText (r : Request) : assemble (requestText r) = .request r := by
  unfold requestText
  split
  next data gen h =>
    rw [← encode_of_decode h]
    exact operands_two 0x00#8 true data gen
  next data h =>
    rw [← encode_of_decode h]
    exact operands_one 0x01#8 data
  next data h =>
    rw [← encode_of_decode h]
    exact operands_one 0x02#8 data
  next data h =>
    rw [← encode_of_decode h]
    exact operands_one 0x03#8 data
  next data h =>
    rw [← encode_of_decode h]
    exact operands_one 0x04#8 data
  next => exact assemble_rawText r

/-- Settles O10: both lines read back, and the request read back from an instruction's line is its encoding. -/
theorem writtenRequestAssemblesAndDecodes : Obligations.WrittenRequestAssemblesAndDecodes :=
  ⟨fun r => ⟨assemble_rawText r, assemble_requestText r⟩,
    fun i => ⟨encode i, assemble_requestText (encode i), decode_encode i⟩⟩

end Sys2Proof.Machine
end

section
/-! Proofs for 40_crc: the inferences about the remainder (R87 to R90), by what the scan adds to each bit of its buffer,
and the divider's working run (R91). -/

namespace Sys2Proof.Machine

/-! ### What the scan adds to each bit -/

/-- The bit at a position of a buffer; 0 past its end. -/
def bitAt (B : List Bit) (p : Nat) : Bit := B[p]?.getD false

theorem getElem?_eq_bitAt {B : List Bit} {p : Nat} (hp : p < B.length) : B[p]? = some (bitAt B p) := by
  rw [bitAt, List.getElem?_eq_getElem hp, Option.getD_some]

theorem bitAt_of_le {B : List Bit} {p : Nat} (hp : B.length ≤ p) : bitAt B p = false := by
  rw [bitAt, List.getElem?_eq_none hp, Option.getD_none]

theorem bitAt_append_left {B : List Bit} (C : List Bit) {p : Nat} (hp : p < B.length) :
    bitAt (B ++ C) p = bitAt B p := by
  rw [bitAt, List.getElem?_append_left hp, bitAt]

theorem bitAt_append_right {B : List Bit} (C : List Bit) {p : Nat} (hp : B.length ≤ p) :
    bitAt (B ++ C) p = bitAt C (p - B.length) := by
  rw [bitAt, List.getElem?_append_right hp, bitAt]

theorem bitAt_zeros (k p : Nat) : bitAt (zeros k) p = false := by
  rw [bitAt, zeros, List.getElem?_replicate]
  split <;> rfl

/-- Buffers of one size with the same bit at every position are the same. -/
theorem ext_bitAt {B C : List Bit} (hlen : B.length = C.length) (h : ∀ p, p < B.length → bitAt B p = bitAt C p) :
    B = C := by
  refine List.ext_getElem? fun p => ?_
  by_cases hp : p < B.length
  · rw [getElem?_eq_bitAt hp, getElem?_eq_bitAt (hlen ▸ hp), h p hp]
  · rw [List.getElem?_eq_none (not_lt.1 hp), List.getElem?_eq_none (hlen ▸ not_lt.1 hp)]

/-- One position of the scan adds the generator from there on, where the buffer holds 1 (40_crc R84). -/
theorem bitAt_divStep (G B : List Bit) (i : Nat) {p : Nat} (hp : p < B.length) :
    bitAt (divStep G B i) p = (bitAt B p ^^ (decide (i ≤ p) && bitAt B i && bitAt G (p - i))) := by
  rw [bitAt, divStep_get, getElem?_eq_bitAt hp]
  by_cases hi : i ≤ p
  · rw [getElem?_eq_bitAt (hi.trans_lt hp)]
    by_cases hw : p < i + G.length
    · cases hb : bitAt B i <;> simp [hi, hw, bitAt]
    · have hG : bitAt G (p - i) = false := bitAt_of_le (by omega)
      simp [hw, hG]
  · simp [hi]

/-- The scan leaves what lies behind its last window. -/
theorem bitAt_divide_behind {G B : List Bit} {m p : Nat} (hm : m + G.length ≤ p + 1) (hp : p < B.length) :
    bitAt (divide G B m) p = bitAt B p := by
  induction m with
  | zero => rfl
  | succ m ih =>
    have hG : bitAt G (p - m) = false := bitAt_of_le (by omega)
    rw [divide_succ, bitAt_divStep G _ m (by rwa [divide_length]), ih (by omega), hG, Bool.and_false, Bool.xor_false]

/-- What the scan adds depends on the bits it scans and on nothing behind them. -/
theorem divide_adds_alike {G B C : List Bit} {m : Nat} (hB : m ≤ B.length) (hC : m ≤ C.length)
    (h : ∀ p, p < m → bitAt B p = bitAt C p) {p : Nat} (hpB : p < B.length) (hpC : p < C.length) :
    (bitAt (divide G B m) p ^^ bitAt B p) = (bitAt (divide G C m) p ^^ bitAt C p) := by
  induction m generalizing p with
  | zero => rw [divide_zero, divide_zero, Bool.xor_self, Bool.xor_self]
  | succ m ih =>
    have hadds : ∀ q, q < B.length → q < C.length →
        (bitAt (divide G B m) q ^^ bitAt B q) = (bitAt (divide G C m) q ^^ bitAt C q) := fun q hqB hqC =>
      ih (Nat.le_of_succ_le hB) (Nat.le_of_succ_le hC) (fun p hp => h p (Nat.lt_succ_of_lt hp)) hqB hqC
    have hscanned : bitAt (divide G B m) m = bitAt (divide G C m) m := by
      have hm := hadds m hB hC
      rwa [h m (Nat.lt_succ_self m), Bool.xor_left_inj] at hm
    rw [divide_succ, divide_succ, bitAt_divStep G _ m (by rwa [divide_length]),
      bitAt_divStep G _ m (by rwa [divide_length]), hscanned, Bool.xor_right_comm, hadds p hpB hpC,
      Bool.xor_right_comm]

/-- Past a position from which the buffer is all zero, the scan changes nothing there. -/
theorem bitAt_divide_zero {G B : List Bit} {n : Nat} (h : ∀ p, n ≤ p → bitAt (divide G B n) p = false) (j : Nat)
    {p : Nat} (hnp : n ≤ p) : bitAt (divide G B (n + j)) p = false := by
  induction j generalizing p with
  | zero => exact h p hnp
  | succ j ih =>
    by_cases hp : p < B.length
    · rw [← Nat.add_assoc, divide_succ, bitAt_divStep G _ _ (by rwa [divide_length]), ih hnp, ih (Nat.le_add_right n j)]
      simp
    · exact bitAt_of_le (by rw [divide_length]; omega)

/-! ### The remainder -/

theorem dividend_length (D G : List Bit) : (dividend D G).length = D.length + (G.length - 1) := by
  simp [dividend]

/-- The remainder's bits are those of the reduced buffer behind the data (40_crc R86). -/
theorem bitAt_crcRemainder (D G : List Bit) {q : Nat} (hq : q < G.length - 1) :
    bitAt (crcRemainder D G) q = bitAt (divide G (dividend D G) D.length) (D.length + q) := by
  rw [crcRemainder, remainderOf, bitAt, List.getElem?_take_of_lt hq, List.getElem?_drop, bitAt]

/-- No data leaves no remainder but zeros (40_crc R87). -/
theorem crcRemainder_nil (G : List Bit) : crcRemainder [] G = zeros (G.length - 1) := by
  refine ext_bitAt (by simp) fun q hq => ?_
  rw [crcRemainder_length] at hq
  rw [bitAt_crcRemainder [] G hq, List.length_nil, divide_zero, dividend, List.nil_append, bitAt_zeros, bitAt_zeros]

/-- The scan of the data cancels the remainder appended to it: it adds to the appended bits what it adds to the zeros of
the data's own dividend, which is the remainder (40_crc R88). -/
theorem bitAt_divide_remainder (D G : List Bit) {q : Nat} (hq : q < G.length - 1) :
    bitAt (divide G (dividend (D ++ crcRemainder D G) G) D.length) (D.length + q) = false := by
  have hdata : ∀ p, p < D.length → bitAt (dividend D G) p = bitAt (dividend (D ++ crcRemainder D G) G) p := by
    intro p hp
    rw [dividend, dividend, List.append_assoc, bitAt_append_left _ hp, bitAt_append_left _ hp]
  have hzero : bitAt (dividend D G) (D.length + q) = false := by
    rw [dividend, bitAt_append_right _ (Nat.le_add_right _ q), bitAt_zeros]
  have hrem : bitAt (dividend (D ++ crcRemainder D G) G) (D.length + q) = bitAt (crcRemainder D G) q := by
    rw [dividend, List.append_assoc, bitAt_append_right _ (Nat.le_add_right _ q), Nat.add_sub_cancel_left,
      bitAt_append_left _ (by rwa [crcRemainder_length])]
  have hadd := divide_adds_alike (G := G) (p := D.length + q) (by simp [dividend_length])
    (by simp [dividend_length, Nat.add_assoc]) hdata (by rw [dividend_length]; omega)
    (by simp only [dividend_length, List.length_append, crcRemainder_length]; omega)
  rw [hzero, hrem, bitAt_crcRemainder D G hq, Bool.xor_false] at hadd
  exact Bool.xor_left_inj.1 (hadd.symm.trans (Bool.false_xor _).symm)

/-- Behind the data nothing is left of data with its remainder appended, once the data is scanned. -/
theorem bitAt_divide_append_remainder (D G : List Bit) {p : Nat} (hp : D.length ≤ p) :
    bitAt (divide G (dividend (D ++ crcRemainder D G) G) D.length) p = false := by
  obtain ⟨q, rfl⟩ := Nat.exists_eq_add_of_le hp
  by_cases hq : q < G.length - 1
  · exact bitAt_divide_remainder D G hq
  by_cases hend : D.length + q < (dividend (D ++ crcRemainder D G) G).length
  · rw [bitAt_divide_behind (by omega) hend, dividend, bitAt_append_right _ (by simp; omega), bitAt_zeros]
  · exact bitAt_of_le (by rw [divide_length]; omega)

/-- Data with its remainder appended leaves the remainder zero (40_crc R88). -/
theorem crcRemainder_append_self (D G : List Bit) :
    crcRemainder (D ++ crcRemainder D G) G = zeros (G.length - 1) := by
  refine ext_bitAt (by simp) fun q hq => ?_
  rw [crcRemainder_length] at hq
  rw [bitAt_crcRemainder _ G hq, List.length_append, bitAt_zeros]
  exact bitAt_divide_zero (fun p => bitAt_divide_append_remainder D G) _ (by omega)

/-- Behind the scanned positions the first bit of the generator is never added: its window begins where it is scanned
(40_crc R89). -/
theorem bitAt_divide_cons (a b : Bit) (G B : List Bit) {m p : Nat} (hm : m ≤ p) (hp : p < B.length) :
    bitAt (divide (a :: G) B m) p = bitAt (divide (b :: G) B m) p := by
  induction m generalizing p with
  | zero => rfl
  | succ m ih =>
    have hG : bitAt (a :: G) (p - m) = bitAt (b :: G) (p - m) := by
      rw [← Nat.succ_pred_eq_of_pos (Nat.sub_pos_of_lt hm)]
      rfl
    rw [divide_succ, divide_succ, bitAt_divStep _ _ m (by rwa [divide_length]),
      bitAt_divStep _ _ m (by rwa [divide_length]), hG, ih (Nat.le_of_succ_le hm) hp, ih le_rfl (by omega)]

/-- The remainder does not depend on the first bit of the generator (40_crc R89). -/
theorem crcRemainder_cons (D : List Bit) (a b : Bit) (G : List Bit) :
    crcRemainder D (a :: G) = crcRemainder D (b :: G) := by
  refine ext_bitAt (by simp) fun q hq => ?_
  rw [crcRemainder_length] at hq
  rw [bitAt_crcRemainder D (a :: G) hq, bitAt_crcRemainder D (b :: G) hq]
  exact bitAt_divide_cons a b G _ (Nat.le_add_right _ q) (by rw [dividend_length]; omega)

/-! ### Generators of length 2 -/

/-- One more bit changes the parity by itself. -/
theorem parityBit_concat (D : List Bit) (b : Bit) : parityBit (D ++ [b]) = (parityBit D ^^ b) := by
  obtain h | h := Nat.mod_two_eq_zero_or_one (D.count true) <;> cases b <;> simp [parityBit, Nat.add_mod, h]

theorem take_succ_bitAt {B : List Bit} {m : Nat} (hm : m < B.length) : B.take (m + 1) = B.take m ++ [bitAt B m] := by
  rw [List.take_add_one, getElem?_eq_bitAt hm, Option.toList_some]

/-- Scanning by `11` carries the parity of the bits scanned into the next position (40_crc R90). -/
theorem bitAt_divide_11 (B : List Bit) {m : Nat} (hm : m < B.length) :
    bitAt (divide [true, true] B m) m = parityBit (B.take (m + 1)) := by
  induction m with
  | zero => rw [take_succ_bitAt hm]; cases h : bitAt B 0 <;> simp [h, parityBit]
  | succ m ih =>
    have hbehind : bitAt (divide [true, true] B m) (m + 1) = bitAt B (m + 1) := bitAt_divide_behind le_rfl hm
    have hone : bitAt [true, true] (m + 1 - m) = true := by
      rw [Nat.add_sub_cancel_left]
      rfl
    rw [divide_succ, bitAt_divStep _ _ m (by rwa [divide_length]), hbehind, ih (Nat.lt_of_succ_lt hm), hone,
      take_succ_bitAt hm, parityBit_concat]
    simp [Bool.xor_comm]

/-- Scanning by `10` adds nothing behind the positions scanned (40_crc R90). -/
theorem bitAt_divide_10 (B : List Bit) {m p : Nat} (hm : m ≤ p) (hp : p < B.length) :
    bitAt (divide [true, false] B m) p = bitAt B p := by
  induction m generalizing p with
  | zero => rfl
  | succ m ih =>
    have hzero : bitAt [true, false] (p - m) = false := by
      rw [← Nat.succ_pred_eq_of_pos (Nat.sub_pos_of_lt hm)]
      cases (p - m).pred <;> rfl
    rw [divide_succ, bitAt_divStep _ _ m (by rwa [divide_length]), ih (Nat.le_of_succ_le hm) hp, hzero, Bool.and_false,
      Bool.xor_false]

/-- The remainder by a generator of length 2 is one bit, that at the end of the data. -/
theorem crcRemainder_two (D : List Bit) (a b : Bit) :
    crcRemainder D [a, b] = [bitAt (divide [true, b] (D ++ [false]) D.length) D.length] := by
  rw [crcRemainder_cons D a true]
  refine ext_bitAt (by simp) fun q hq => ?_
  rw [crcRemainder_length] at hq
  obtain rfl : q = 0 := by simpa using hq
  exact bitAt_crcRemainder D [true, b] hq

theorem crcRemainder_two_one (D : List Bit) (a : Bit) : crcRemainder D [a, true] = [parityBit D] := by
  have htake : (D ++ [false]).take (D.length + 1) = D ++ [false] := List.take_of_length_le (by simp)
  rw [crcRemainder_two, bitAt_divide_11 _ (by simp), htake, parityBit_concat, Bool.xor_false]

theorem crcRemainder_two_zero (D : List Bit) (a : Bit) : crcRemainder D [a, false] = [false] := by
  rw [crcRemainder_two, bitAt_divide_10 _ le_rfl (by simp), bitAt_append_right _ le_rfl]
  simp [bitAt]

/-! ### The statements -/

/-- Over valid operands CRC answers OK with the remainder. -/
theorem exec_crc_ok {data gen : List Sym} (hd : BitString data) (hg : BitString gen) (hl : 2 ≤ gen.length) {s : State}
    (hs : s.busy) :
    exec (.crc data gen) s = .next (s.answered ⟨0x00#8, crcRemainder (bitsOf data) (bitsOf gen)⟩) := by
  rw [exec_crc_busy data gen hs, crcResponse_ok hl hg hd]
  rfl

/-- Settles O20: `crcRemainder_length`, and `crcRemainder_nil` for no data. -/
theorem crcRemainderLength : Obligations.CrcRemainderLength := by
  intro s data gen hs hd hg hl hmax
  refine ⟨⟨_, exec_crc_ok hd hg hl hs, ?_, ?_, ?_⟩, ?_⟩
  · rw [crcRemainder_length, bitsOf_length]
  · rw [crcRemainder_length, bitsOf_length]
    omega
  · rw [crcRemainder_length, bitsOf_length]
    omega
  · have hnil : crcRemainder (bitsOf []) (bitsOf gen) = zeros (gen.length - 1) := by
      rw [← bitsOf_length gen]
      exact crcRemainder_nil (bitsOf gen)
    rw [exec_crc_ok bitString_nil hg hl hs, hnil, zeros]

/-- The bits of a rendered bit sequence are the sequence (30_encoding R65). -/
theorem bitsOf_render (bs : List Bit) : bitsOf (render bs) = bs := by
  rw [bitsOf, render, List.map_map]
  exact (List.map_congr_left fun b _ => bitOf_symOfBit b).trans (List.map_id bs)

theorem bitString_append {s t : List Sym} (hs : BitString s) (ht : BitString t) : BitString (s ++ t) :=
  List.forall_mem_append.2 ⟨hs, ht⟩

theorem bitsOf_append (s t : List Sym) : bitsOf (s ++ t) = bitsOf s ++ bitsOf t :=
  List.map_append

/-- Settles O21: the appended symbols are the rendering of the remainder, and `crcRemainder_append_self`. -/
theorem crcSelfCheck : Obligations.CrcSelfCheck := by
  intro s s' data gen hs hs' hd hg hl
  have hself : exec (.crc (data ++ render (crcRemainder (bitsOf data) (bitsOf gen))) gen) s' =
      .next (s'.answered ⟨0x00#8, zeros (gen.length - 1)⟩) := by
    rw [exec_crc_ok (bitString_append hd (bitString_render _)) hg hl hs', bitsOf_append, bitsOf_render,
      crcRemainder_append_self, bitsOf_length]
  exact ⟨_, exec_crc_ok hd hg hl hs, hself⟩

/-- Settles O22: `crcRemainder_cons`. -/
theorem crcIgnoresTheFirstGeneratorBit : Obligations.CrcIgnoresTheFirstGeneratorBit := by
  intro s data gen c hs hd hl hg
  have hg' : BitString (0x31#8 :: gen) := List.forall_mem_cons.2 ⟨.inr rfl, (List.forall_mem_cons.1 hg).2⟩
  have hlen : ∀ d : Sym, 2 ≤ (d :: gen).length := fun _ => Nat.succ_le_succ hl
  refine ⟨_, exec_crc_ok hd hg (hlen c) hs, ?_⟩
  rw [exec_crc_ok hd hg' (hlen _) hs]
  exact congrArg (fun r => Host.Outcome.next (s.answered ⟨0x00#8, r⟩))
    (crcRemainder_cons (bitsOf data) (bitOf 0x31#8) (bitOf c) (bitsOf gen))

/-- Settles O23: the remainder by a generator of length 2 is the parity where its second bit is 1, else 0. -/
theorem crcByTwoBitGenerators : Obligations.CrcByTwoBitGenerators := by
  intro s data gen' hs hd
  have hexec : ∀ (c d : Sym) {x : List Bit}, BitString [c, d] → crcRemainder (bitsOf data) [bitOf c, bitOf d] = x →
      exec (.crc data [c, d]) s = .next (s.answered ⟨0x00#8, x⟩) := by
    rintro c d x hg rfl
    exact exec_crc_ok hd hg le_rfl hs
  refine ⟨parityBit (bitsOf data), ?_, ?_, ?_, ?_, ?_⟩
  · rw [exec_par_busy data gen' hs, parResponse_ok gen' hd]
    rfl
  · exact hexec _ _ (by simp [BitString]) (crcRemainder_two_one _ _)
  · exact hexec _ _ (by simp [BitString]) (crcRemainder_two_one _ _)
  · exact hexec _ _ (by simp [BitString]) (crcRemainder_two_zero _ _)
  · exact hexec _ _ (by simp [BitString]) (crcRemainder_two_zero _ _)

/-! ### The working run -/

/-- After its start and `i` positions the divider holds what the scan of `i` positions leaves (40_crc R91). -/
theorem workAfter_crc {data gen : List Sym} (hd : BitString data) (hg : BitString gen) (hl : 2 ≤ gen.length) {i : Nat}
    (hi : i ≤ data.length) :
    workAfter (encode (.crc data gen)) (i + 1) =
      .crc (divide (bitsOf gen) (dividend (bitsOf data) (bitsOf gen)) i) i := by
  have hok : (validGenerator gen && isBitString data) = true :=
    Bool.and_eq_true_iff.2 ⟨(validGenerator_iff gen).2 ⟨hl, hg⟩, (isBitString_iff data).2 hd⟩
  induction i with
  | zero => simp [workAfter, workStep_encode, unitStep, crcWork, hok]
  | succ i ih =>
    rw [workAfter, workStep_encode, ih (Nat.le_of_succ_le hi), unitStep, crcWork, if_pos hok, divide_succ]
    exact if_pos hi

/-- Settles O24: `workAfter_crc`, with each position read by `divStep_get` and the last buffer the reduced one. -/
theorem crcWorkingRunEndsInTheResult : Obligations.CrcWorkingRunEndsInTheResult := by
  intro data gen hd hg hl
  refine ⟨?_, fun i hi => ⟨_, workAfter_crc hd hg hl hi, ?_⟩, fun i B hi hB => ?_, _, workAfter_crc hd hg hl le_rfl, ?_⟩
  · rw [workAfter_crc hd hg hl (Nat.zero_le _), divide_zero, dividend_bitsOf hd gen]
  · rw [divide_length, dividend_length, bitsOf_length, bitsOf_length]
    omega
  · rw [workAfter_crc hd hg hl hi.le] at hB
    obtain ⟨rfl, -⟩ := Work.crc.inj hB
    refine ⟨_, workAfter_crc hd hg hl hi, fun p => ?_⟩
    rw [divide_succ, divStep_get, bitsOf_length, bitsOf_getElem?_getD hg]
  · rw [coreResponse_instr (decode_encode _), respond, crcResponse_ok hl hg hd, crcRemainder, remainderOf,
      bitsOf_length, bitsOf_length]
    rfl

end Sys2Proof.Machine
end

section
/-! Proofs for 41_checksum, 42_parity and 44_luhn: the working run of each unit ends in the result of COMPLETE (R102,
R108, R124), and leading zeros do not change LUHN (R122). -/

namespace Sys2Proof.Machine

/-- The first working step of an operation is the start of its unit. -/
theorem workAfter_one (i : Instr) : workAfter (encode i) 1 = unitStep i .empty :=
  workStep_encode i .empty

/-! ### CSUM -/

/-- The sum of the first `k` groups. -/
def groupsBefore (D : List Bit) (k : Nat) : Nat := ((List.range k).map fun m => val (group D m)).sum

theorem groupsBefore_succ (D : List Bit) (k : Nat) : groupsBefore D (k + 1) = groupsBefore D k + val (group D k) :=
  List.sum_range_succ (fun m => val (group D m)) k

theorem csumWork_start {data : List Sym} (hd : BitString data) : csumWork data .empty = .csum 0#8 0 := by
  simp [csumWork, (isBitString_iff data).2 hd]

/-- A working step of the accumulator adds the value of the next group (41_checksum R102). -/
theorem csumWork_group {data : List Sym} (hd : BitString data) (acc : Byte) {k : Nat}
    (hk : k < groupCount data.length) :
    csumWork data (.csum acc k) = .csum (acc + BitVec.ofNat 8 (val (group (bitsOf data) k))) (k + 1) := by
  rw [csumWork, if_pos ((isBitString_iff data).2 hd)]
  exact if_pos hk

/-- After its start and `k` groups the accumulator holds their sum modulo 256 (41_checksum R102). -/
theorem workAfter_csum {data : List Sym} (hd : BitString data) (gen : List Sym) {k : Nat}
    (hk : k ≤ groupCount data.length) :
    workAfter (encode (.csum data gen)) (k + 1) = .csum (BitVec.ofNat 8 (groupsBefore (bitsOf data) k)) k := by
  induction k with
  | zero =>
    rw [workAfter_one, unitStep, csumWork_start hd]
    rfl
  | succ k ih =>
    rw [workAfter, workStep_encode, ih (Nat.le_of_succ_le hk), unitStep, csumWork_group hd _ hk, ← BitVec.ofNat_add,
      ← groupsBefore_succ]

/-- Over a bit string CSUM answers OK with the sum of its groups modulo 256. -/
theorem coreResponse_csum {data : List Sym} (hd : BitString data) (gen : List Sym) :
    coreResponse (encode (.csum data gen)) = okWith (bits8 (groupSum (bitsOf data) % 256)) :=
  (coreResponse_instr (decode_encode _)).trans (csumResponse_ok gen hd)

/-- Settles O28: `workAfter_csum`, and a sum does not depend on the order of its terms. -/
theorem csumAccumulatorEndsInTheResult : Obligations.CsumAccumulatorEndsInTheResult := by
  intro data gen hd
  refine ⟨workAfter_csum hd gen (Nat.zero_le _), fun k acc hk hacc => ?_, ⟨_, workAfter_csum hd gen le_rfl, ?_⟩,
    fun ks hks => ?_⟩
  · have hadd : acc + BitVec.ofNat 8 (val (group (bitsOf data) k)) =
        BitVec.ofNat 8 ((acc.toNat + val (group (bitsOf data) k)) % 256) := by
      apply BitVec.eq_of_toNat_eq
      simp
    rw [workAfter, hacc, workStep_encode, unitStep, csumWork_group hd acc hk, hadd, group]
  · rw [coreResponse_csum hd gen, BitVec.toNat_ofNat, groupSum, bitsOf_length, groupsBefore]
    rfl
  · have hsum : (ks.map fun k => val (group (bitsOf data) k)).sum = groupSum (bitsOf data) := by
      rw [groupSum, bitsOf_length]
      exact (hks.map _).sum_eq
    rw [coreResponse_csum hd gen, ← hsum]
    rfl

/-! ### PAR -/

theorem parWork_start {data : List Sym} (hd : BitString data) : parWork data .empty = .par false 0 := by
  simp [parWork, (isBitString_iff data).2 hd]

/-- A working step of the generator takes the next symbol by XOR (42_parity R108). -/
theorem parWork_symbol {data : List Sym} (hd : BitString data) (p : Bit) {i : Nat} {c : Sym} (hc : data[i]? = some c) :
    parWork data (.par p i) = .par (p ^^ bitOf c) (i + 1) := by
  simp [parWork, (isBitString_iff data).2 hd, hc]

/-- After its start and `i` symbols the register holds their parity (42_parity R108). -/
theorem workAfter_par {data : List Sym} (hd : BitString data) (gen : List Sym) {i : Nat} (hi : i ≤ data.length) :
    workAfter (encode (.par data gen)) (i + 1) = .par (parityBit (bitsOf (data.take i))) i := by
  induction i with
  | zero =>
    rw [workAfter_one, unitStep, parWork_start hd]
    rfl
  | succ i ih =>
    have hc : data[i]? = some data[i] := List.getElem?_eq_getElem hi
    rw [workAfter, workStep_encode, ih (Nat.le_of_succ_le hi), unitStep, parWork_symbol hd _ hc, List.take_add_one, hc,
      Option.toList_some, bitsOf_append]
    exact congrArg (Work.par · (i + 1)) (parityBit_concat _ _).symm

/-- Settles O32: `workAfter_par`, at the end of the data. -/
theorem parRegisterEndsInTheResult : Obligations.ParRegisterEndsInTheResult := by
  intro data gen hd
  refine ⟨workAfter_par hd gen (Nat.zero_le _), fun i p c hc hp => ?_, _, workAfter_par hd gen le_rfl, ?_⟩
  · rw [workAfter, hp, workStep_encode, unitStep, parWork_symbol hd p hc, bitOf_eq (hd c (List.mem_of_getElem? hc))]
  · rw [coreResponse_instr (decode_encode _), respond, parResponse_ok gen hd, List.take_length]
    rfl

/-! ### HAM74 -/

/-- The three parity checks hold in every codeword (43_hamming R118). -/
theorem hammingWord_checks (d0 d1 d2 d3 : Bit) :
    ∃ c0 c1 c2 c3 c4 c5 c6 : Bool, hammingWord d0 d1 d2 d3 = [c0, c1, c2, c3, c4, c5, c6] ∧
      c0 = (c2 ^^ c4 ^^ c6) ∧ c1 = (c2 ^^ c5 ^^ c6) ∧ c3 = (c4 ^^ c5 ^^ c6) :=
  ⟨_, _, _, _, _, _, _, rfl, rfl, rfl, rfl⟩

/-- Settles O36: an OK result is a codeword, and `hammingWord_checks`. -/
theorem hammingParityChecksHold : Obligations.HammingParityChecksHold := by
  intro s data gen hs hl hd
  obtain ⟨c0, c1, c2, c3, rfl⟩ := List.length_eq_four.1 hl
  obtain ⟨b0, b1, b2, b3, b4, b5, b6, hword, hchecks⟩ := hammingWord_checks (bitOf c0) (bitOf c1) (bitOf c2) (bitOf c3)
  refine ⟨b0, b1, b2, b3, b4, b5, b6, ?_, hchecks⟩
  rw [exec_ham74_busy _ gen hs, ham74Response_ok gen hd, hword]
  rfl

/-! ### LUHN -/

/-- Over a digit string LUHN answers OK with the classification of its sum (44_luhn R126, R127). -/
theorem exec_luhn_ok {data : List Sym} (hd : DigitString data) (gen : List Sym) {s : State} (hs : s.busy) :
    exec (.luhn data gen) s = .next (s.answered ⟨0x00#8, [luhnSum data % 10 == 0]⟩) := by
  rw [exec_luhn_busy data gen hs, luhnResponse_ok gen hd]
  rfl

/-- Settles O39: the empty data is a digit string, and its sum 0 is a multiple of 10. -/
theorem luhnOfNoDataIsValid : Obligations.LuhnOfNoDataIsValid :=
  fun _ gen hs => exec_luhn_ok (List.forall_mem_nil _) gen hs

theorem luhnTerm_zero (j : Nat) : luhnTerm j 0 = 0 := by
  simp [luhnTerm]

/-- Zeros in front stand farthest from the right and add nothing (44_luhn R122). -/
theorem luhnSum_zeros_append (k : Nat) (data : List Sym) :
    luhnSum (List.replicate k 0x30#8 ++ data) = luhnSum data := by
  induction k with
  | zero => rfl
  | succ k ih =>
    have hzero : digitOf 0x30#8 = 0 := rfl
    rw [List.replicate_succ, List.cons_append, luhnSum_cons, ih, hzero, luhnTerm_zero, Nat.add_zero]

/-- Settles O40: `luhnSum_zeros_append`. -/
theorem luhnIgnoresLeadingZeros : Obligations.LuhnIgnoresLeadingZeros := by
  intro s data gen k hs hd
  have hzeros : DigitString (List.replicate k 0x30#8) := fun c hc => by
    rw [List.eq_of_mem_replicate hc]
    decide
  refine ⟨_, exec_luhn_ok hd gen hs, ?_⟩
  rw [exec_luhn_ok (List.forall_mem_append.2 ⟨hzeros, hd⟩) gen hs, luhnSum_zeros_append]

/-- The sum of the digits at the first `j` positions from the right. -/
def luhnSumBefore (data : List Sym) (j : Nat) : Nat :=
  ((List.range j).map fun m => luhnTerm (m + 1) (digitFromRight data (m + 1))).sum

theorem luhnSumBefore_succ (data : List Sym) (j : Nat) :
    luhnSumBefore data (j + 1) = luhnSumBefore data j + luhnTerm (j + 1) (digitFromRight data (j + 1)) :=
  List.sum_range_succ (fun m => luhnTerm (m + 1) (digitFromRight data (m + 1))) j

theorem luhnWork_start {data : List Sym} (hd : DigitString data) : luhnWork data .empty = .luhn 0 1 := by
  simp [luhnWork, (isDigitString_iff data).2 hd]

/-- After its start and `j` digits the sum register holds their sum (44_luhn R124). -/
theorem workAfter_luhn {data : List Sym} (hd : DigitString data) (gen : List Sym) {j : Nat} (hj : j ≤ data.length) :
    workAfter (encode (.luhn data gen)) (j + 1) = .luhn (luhnSumBefore data j) (j + 1) := by
  induction j with
  | zero =>
    rw [workAfter_one, unitStep, luhnWork_start hd]
    rfl
  | succ j ih =>
    rw [workAfter, workStep_encode, ih (Nat.le_of_succ_le hj), unitStep, luhnWork,
      if_pos ((isDigitString_iff data).2 hd), luhnSumBefore_succ]
    exact if_pos hj

theorem luhnTerm_le {x : Nat} (hx : x ≤ 9) (j : Nat) : luhnTerm j x ≤ 9 := by
  unfold luhnTerm
  split_ifs <;> omega

theorem digitFromRight_le {data : List Sym} (hd : DigitString data) (j : Nat) : digitFromRight data j ≤ 9 := by
  rw [digitFromRight]
  cases hc : data[data.length - j]? with
  | none => exact Nat.zero_le 9
  | some c =>
    obtain ⟨hlow, hhigh⟩ := hd c (List.mem_of_getElem? hc)
    rw [Option.map_some, Option.getD_some, digitOf_eq hlow]
    omega

/-- No digit adds more than 9 (44_luhn R125). -/
theorem luhnSumBefore_le {data : List Sym} (hd : DigitString data) (j : Nat) : luhnSumBefore data j ≤ 9 * j := by
  induction j with
  | zero => exact le_rfl
  | succ j ih =>
    have hterm := luhnTerm_le (digitFromRight_le hd (j + 1)) (j + 1)
    rw [luhnSumBefore_succ]
    omega

/-- Settles O41: `workAfter_luhn` and `luhnSumBefore_le`, and the sum of all positions is the model's sum. -/
theorem luhnSumRegisterEndsInTheResult : Obligations.LuhnSumRegisterEndsInTheResult := by
  intro data gen hd
  refine ⟨workAfter_luhn hd gen (Nat.zero_le _),
    fun j hj => ⟨_, workAfter_luhn hd gen hj, luhnSumBefore_le hd j⟩, _, workAfter_luhn hd gen le_rfl, ?_⟩
  rw [coreResponse_instr (decode_encode _), respond, luhnResponse_ok gen hd]
  rfl

/-! ### GEN outside CRC -/

/-- Settles O42: the four operations' responses do not name GEN, and an illegal byte is answered by the byte alone. -/
theorem generatorIsIgnoredOutsideCrc : Obligations.GeneratorIsIgnoredOutsideCrc := by
  refine ⟨fun s data gen gen' => ⟨rfl, rfl, rfl, rfl⟩, fun op data gen data' gen' hop => ?_⟩
  rw [coreResponse_illegal hop, coreResponse_illegal hop]

end Sys2Proof.Machine
end

section
/-! Proofs for the platform: what an operation leaves unchanged (10_state R30), where actions are enabled (70_reset R160),
and runs of host actions, reset and COMPLETE (20_memory R48, 70_reset R156, R157, R162, R163). -/

namespace Sys2Proof.Machine

/-! ### The operations -/

/-- Settles O47: by `exec_next` an operation only sets the selected instance, to its answered form. -/
theorem execFrame : Obligations.ExecFrame := by
  intro i s t h
  obtain ⟨c, hc, hp, rfl⟩ := exec_next.1 h
  exact ⟨rfl, rfl, rfl, List.length_set, fun k hk => State.setSel_other _ s hk,
    c, _, hc, State.setSel_same _ hc, hp, rfl, rfl, ⟨_, rfl⟩, rfl⟩

/-- Settles O2: `State.reset_insts`, and an operation answers `respond i`, which names no part of the state. -/
theorem resetLeavesInstancesIdleAndEmpty : Obligations.ResetLeavesInstancesIdleAndEmpty := by
  refine ⟨?_, fun c hc => ?_, fun i => ⟨respond i, fun r y w => exec_busy i ⟨_, rfl, rfl⟩⟩⟩
  · rw [State.reset_insts, List.length_replicate]
  · rw [State.reset_insts] at hc
    rw [List.eq_of_mem_replicate hc]
    exact ⟨rfl, rfl, rfl, rfl⟩

/-- COMPLETE of a latched request that decodes to an operation runs the operation (10_state R30). -/
theorem completeSel_instr {s : State} {r : Request} {i : Instr} (h : s.latched r) (hi : decode r = .instr i) :
    completeSel s = exec i s := by
  rw [completeSel_latched h, coreResponse_instr hi, exec_busy i h.busy]

/-- With an empty script the first BUSY instance completes next (70_reset R162). -/
theorem nextEvent_firstBusy {s : State} {k : Nat} {c : Inst} (hs : s.script = []) (hc : s.insts[k]? = some c)
    (hp : c.phase = .busy) (hfirst : ∀ j d, j < k → s.insts[j]? = some d → d.phase ≠ .busy) :
    s.nextEvent = some (.complete, { s with sel := k }) := by
  have hk : s.firstBusy = some k := by
    obtain ⟨hlt, rfl⟩ := List.getElem?_eq_some_iff.1 hc
    refine List.findIdx?_eq_some_iff_getElem.2 ⟨hlt, by simpa using hp, fun j hj => ?_⟩
    simpa using hfirst j _ hj (List.getElem?_eq_getElem (hj.trans hlt))
  rw [nextEvent_empty hs, hk, Option.map_some]

/-- Settles O13: in both cases the next event is COMPLETE at instance `k`, and `completeSel_instr`. -/
theorem stepRunsTheDecodedInstruction : Obligations.StepRunsTheDecodedInstruction := by
  constructor
  · intro s k rest c r i hs hc hp hr hi
    exact (step_some (nextEvent_script hs)).trans (completeSel_instr ⟨c, hc, hp, hr⟩ hi)
  · intro s k c r i hs hc hp hfirst hr hi
    exact (step_some (nextEvent_firstBusy hs hc hp hfirst)).trans (completeSel_instr ⟨c, hc, hp, hr⟩ hi)

/-- With an empty script and nothing BUSY nothing happens next. -/
theorem nextEvent_none {s : State} (hs : s.script = []) (hidle : ∀ c ∈ s.insts, c.phase ≠ .busy) :
    s.nextEvent = none := by
  have hnone : s.firstBusy = none := List.findIdx?_eq_none_iff.2 fun c hc => by simpa using hidle c hc
  rw [nextEvent_empty hs, hnone, Option.map_none]

/-- Settles O14: `nextEvent_none`. -/
theorem platformWaitsForItsHosts : Obligations.PlatformWaitsForItsHosts := by
  intro s hs hidle
  rw [step, nextEvent_none hs hidle]

/-! ### Where actions are enabled -/

/-- An instance that fits together has a move by exactly the actions enabled in its phase (70_reset R160). -/
theorem moves_iff_allowed {c : Inst} (hc : c.Inv) (a : Action) : (∃ c' l, a.Moves c c' l) ↔ a.allowed c := by
  constructor
  · rintro ⟨c', l, h⟩
    cases h with
    | @issue r _ hp hr => exact ⟨hp, (admitted_iff r).1 hr⟩
    | read _ => trivial
    | readRsp hp _ => exact hp
    | ack hp => exact hp
    | work hp _ => exact hp
    | complete hp _ => exact hp
    | reset => trivial
  · intro h
    cases a with
    | issue r => exact ⟨_, _, .issue h.1 ((admitted_iff r).2 h.2)⟩
    | read =>
      by_cases hp : c.phase = .done
      · obtain ⟨r, -, -, hx, -⟩ := (Inst.inv_done hp).1 hc
        exact ⟨_, _, .read (Inst.read_next.2 (.inl ⟨hp, _, hx, rfl⟩))⟩
      · exact ⟨_, _, .read (Inst.read_next.2 (.inr ⟨hp, rfl⟩))⟩
    | readRsp =>
      obtain ⟨r, -, -, hx, -⟩ := (Inst.inv_done h).1 hc
      exact ⟨_, _, .readRsp h hx⟩
    | ack => exact ⟨_, _, .ack h⟩
    | work =>
      obtain ⟨r, hr, -⟩ := (Inst.inv_busy h).1 hc
      exact ⟨_, _, .work h hr⟩
    | complete =>
      obtain ⟨r, hr, -⟩ := (Inst.inv_busy h).1 hc
      exact ⟨_, _, .complete h hr⟩
    | reset => exact ⟨_, _, .reset⟩

/-- Settles O51: the platform answers where the selected instance has a move, and `moves_iff_allowed`. -/
theorem actionsMoveExactlyWhereEnabled : Obligations.ActionsMoveExactlyWhereEnabled := by
  intro s s' a c hs he hc
  have hinv : c.Inv := ((State.inv_congr (nextEvent_keeps he).1).2 hs).selected hc
  rw [step_some he, ← moves_iff_allowed hinv a]
  constructor
  · rintro ⟨t, ht⟩
    obtain ⟨d, c', l, hd, hmove, -⟩ := perform_next_iff.1 ht
    obtain rfl : d = c := Option.some.inj (hd.symm.trans hc)
    exact ⟨c', l, hmove⟩
  · rintro ⟨c', l, hmove⟩
    exact ⟨_, hmove.perform_eq hc⟩

/-! ### Working steps -/

/-- Setting the selected instance to one that agrees with it in `f` changes nothing that `f` tells. -/
theorem map_insts_setSel {α : Type} {f : Inst → α} {s : State} {c c' : Inst} (hc : s.selected = some c)
    (h : f c' = f c) (k : Nat) : (s.setSel c').insts[k]?.map f = s.insts[k]?.map f := by
  by_cases hk : k = s.sel
  · have hsel : s.insts[s.sel]? = some c := hc
    rw [hk, State.setSel_same c' hc, hsel, Option.map_some, Option.map_some, h]
  · rw [State.setSel_other c' s hk]

/-- Settles O54: by `workOne_next` a working step sets the working state of the selected instance only. -/
theorem workingStepsAreNotObservable : Obligations.WorkingStepsAreNotObservable := by
  constructor
  · intro s s' c r he hc hp hr
    exact (step_some he).trans (workOne_next.2 ⟨c, r, hc, hp, hr, rfl⟩)
  · intro s s' t he h
    obtain ⟨hinsts, hseen⟩ := nextEvent_keeps he
    obtain ⟨c, r, hc, -, -, rfl⟩ := workOne_next.1 ((step_some he).symm.trans h)
    refine ⟨hseen, fun k => ?_⟩
    rw [← hinsts]
    exact map_insts_setSel (c' := { c with work := workStep r c.work }) hc rfl k

/-! ### Runs of actions at one instance -/

/-- Moves of one instance, one after the other, with all its answers. `Chain.run` ties it to the machine. -/
inductive Chain : List Action → Inst → Inst → List Answer → Prop
  | nil {c : Inst} : Chain [] c c []
  | cons {a : Action} {as : List Action} {c d e : Inst} {l m : List Answer} (h : a.Moves c d l) (hs : Chain as d e m) :
      Chain (a :: as) c e (l ++ m)

theorem getElem?_set_some {l : List Inst} {k : Nat} {c : Inst} (h : l[k]? = some c) (d : Inst) :
    (l.set k d)[k]? = some d :=
  List.getElem?_set_self (List.getElem?_eq_some_iff.1 h).1

/-- A scripted action at an instance that has the move is taken, and only that instance changes. -/
theorem step_script {s : State} {k : Nat} {a : Action} {rest : List Event} {c c' : Inst} {l : List Answer}
    (hs : s.script = ⟨k, a⟩ :: rest) (hc : s.insts[k]? = some c) (h : a.Moves c c' l) :
    ∃ t, step s = .next t ∧ t.script = rest ∧ t.seen = s.seen ++ l.map (Seen.mk k) ∧ t.insts = s.insts.set k c' :=
  ⟨_, (step_some (nextEvent_script hs)).trans (h.perform_eq hc), rfl, rfl, rfl⟩

/-- Scripted actions at an instance that has the moves are run one after the other, and only that instance changes. -/
theorem Chain.run {as : List Action} {c c' : Inst} {l : List Answer} (h : Chain as c c' l) {s : State} {k : Nat}
    {rest : List Event} (hs : s.script = as.map (Event.mk k) ++ rest) (hc : s.insts[k]? = some c) :
    ∃ t, Host.Core.run core as.length s = .next t ∧ t.script = rest ∧ t.seen = s.seen ++ l.map (Seen.mk k) ∧
      t.insts = s.insts.set k c' := by
  induction h generalizing s with
  | nil =>
    obtain ⟨hlt, rfl⟩ := List.getElem?_eq_some_iff.1 hc
    exact ⟨s, rfl, hs, (List.append_nil _).symm, (List.set_getElem_self hlt).symm⟩
  | @cons a as c d e l m h _ ih =>
    obtain ⟨t, hstep, htscript, htseen, htinsts⟩ := step_script hs hc h
    have hd : t.insts[k]? = some d := by
      rw [htinsts]
      exact getElem?_set_some hc d
    obtain ⟨u, hrun, huscript, huseen, huinsts⟩ := ih htscript hd
    refine ⟨u, (run_succ hstep _).trans hrun, huscript, ?_, ?_⟩
    · rw [huseen, htseen, List.map_append, List.append_assoc]
    · rw [huinsts, htinsts, List.set_set]

/-- ISSUE and COMPLETE of an admitted request from reset give its own response. -/
theorem chain_issue_complete {r : Request} (hr : r.admitted = true) :
    Chain [.issue r, .complete] Inst.reset ⟨.done, some r, some (coreResponse r), .empty⟩ [.issued r] :=
  .cons (.issue rfl hr) (.cons (.complete rfl rfl) .nil)

/-- Settles O55: the chain of the four moves, whatever REQ, RSP and working state held before. -/
theorem transactionGivesTheRequestsOwnResponse : Obligations.TransactionGivesTheRequestsOwnResponse := by
  intro s k r rest c hs hc hp hr
  have hchain : Chain [.issue r, .complete, .readRsp, .ack] c Inst.reset
      [.issued r, .response (coreResponse r), .acked] :=
    .cons (.issue hp hr) (.cons (.complete rfl rfl) (.cons (.readRsp rfl rfl) (.cons (.ack rfl) .nil)))
  exact hchain.run hs hc

/-- Settles O6: COMPLETE and the chain of reset, ISSUE and COMPLETE both answer `CORE(REQ)`. -/
theorem reissueAfterResetGivesTheLostResponse : Obligations.ReissueAfterResetGivesTheLostResponse := by
  intro s k rest c r hs hc hp hreq hr
  have hlost : Action.Moves .complete c (c.answer (coreResponse r)) [] := .complete hp hreq
  have hreset : Chain [.reset] c Inst.reset [.reset] := .cons .reset .nil
  have hall : Chain [.reset, .issue r, .complete] c ⟨.done, some r, some (coreResponse r), .empty⟩
      [.reset, .issued r] := .cons .reset (chain_issue_complete hr)
  obtain ⟨v, hv, -, -, hvinsts⟩ := hreset.run hs hc
  obtain ⟨t, ht, -, -, htinsts⟩ := hall.run hs hc
  refine ⟨coreResponse r, t, _, v, hlost.perform_eq (s := { s with sel := k }) hc,
    State.moved_insts_same (s := { s with sel := k }) hc _ _, hv, ?_, ht, ?_⟩
  · rw [hvinsts]
    exact getElem?_set_some hc Inst.reset
  · rw [htinsts]
    exact getElem?_set_some hc _

/-! ### A READ of RSP after a reset -/

/-- Only COMPLETE takes an instance into DONE. -/
theorem Action.Moves.not_done {a : Action} {c c' : Inst} {l : List Answer} (h : a.Moves c c' l) (ha : a ≠ .complete)
    (hp : c.phase ≠ .done) : c'.phase ≠ .done := by
  cases h with
  | issue _ _ => exact Phase.noConfusion
  | read _ => exact hp
  | readRsp _ _ => exact hp
  | ack _ => exact Phase.noConfusion
  | work _ _ => exact hp
  | complete _ _ => exact absurd rfl ha
  | reset => exact Phase.noConfusion

/-- An instance outside DONE stays outside DONE through an event that is no COMPLETE at it. -/
theorem step_not_done {s t : State} {e : Event} {rest : List Event} {k : Nat} {c : Inst} (hs : s.script = e :: rest)
    (he : e ≠ ⟨k, .complete⟩) (hc : s.insts[k]? = some c) (hp : c.phase ≠ .done) (h : step s = .next t) :
    t.script = rest ∧ ∃ c', t.insts[k]? = some c' ∧ c'.phase ≠ .done := by
  rw [step_some (nextEvent_script hs)] at h
  obtain ⟨d, d', l, hd, hmove, rfl⟩ := perform_next_iff.1 h
  refine ⟨rfl, ?_⟩
  by_cases hk : k = e.inst
  · subst hk
    obtain rfl : d = c := Option.some.inj (hd.symm.trans hc)
    have ha : e.act ≠ .complete := fun ha => he (congrArg (Event.mk e.inst) ha)
    exact ⟨d', State.moved_insts_same hd d' l, hmove.not_done ha hp⟩
  · exact ⟨c, (State.moved_insts_other hk d' l).trans hc, hp⟩

/-- Outside DONE a READ of RSP faults, also after any events that move and hold no COMPLETE there (10_state R24). -/
theorem run_readRsp_fault {mid rest : List Event} {k : Nat} (hmid : ∀ e ∈ mid, e ≠ ⟨k, .complete⟩) {s u : State}
    {c : Inst} (hs : s.script = mid ++ ⟨k, .readRsp⟩ :: rest) (hc : s.insts[k]? = some c) (hp : c.phase ≠ .done)
    (hrun : Host.Core.run core mid.length s = .next u) :
    Host.Core.run core (mid.length + 1) s = .fault .readUnwrittenRsp := by
  induction mid generalizing s c with
  | nil => exact run_succ_fault ((step_some (nextEvent_script hs)).trans (readRspSel_not_done hc hp)) 0
  | cons e mid ih =>
    obtain ⟨he, hmid'⟩ := List.forall_mem_cons.1 hmid
    obtain ⟨t, hstep, hrun'⟩ := run_succ_next hrun
    obtain ⟨hscript, c', hc', hp'⟩ := step_not_done hs he hc hp hstep
    exact (run_succ hstep _).trans (ih hmid' hscript hc' hp' hrun')

/-- A reset that moves leaves its instance in IDLE and takes itself off the script. -/
theorem step_reset {s t : State} {k : Nat} {rest : List Event} (hs : s.script = ⟨k, .reset⟩ :: rest)
    (h : step s = .next t) : t.script = rest ∧ t.insts[k]? = some Inst.reset := by
  rw [step_some (nextEvent_script hs)] at h
  obtain ⟨c, hc, rfl⟩ := resetSel_next.1 h
  exact ⟨rfl, State.setSel_same Inst.reset hc⟩

/-- Settles O5: the reset leaves the instance outside DONE, and `run_readRsp_fault` for the events between. -/
theorem readOfResponseAfterResetFaults : Obligations.ReadOfResponseAfterResetFaults := by
  have hidle : Inst.reset.phase ≠ .done := Phase.noConfusion
  constructor
  · intro s k rest c hs hc
    obtain ⟨t, hstep, -⟩ := step_script hs hc .reset
    obtain ⟨hscript, hinst⟩ := step_reset hs hstep
    exact (run_succ hstep 1).trans
      (run_readRsp_fault (mid := []) (List.forall_mem_nil _) hscript hinst hidle rfl)
  · intro s u k mid rest hs hmid hrun
    obtain ⟨t, hstep, hrun'⟩ := run_succ_next hrun
    obtain ⟨hscript, hinst⟩ := step_reset hs hstep
    exact (run_succ hstep _).trans (run_readRsp_fault hmid hscript hinst hidle hrun')

/-! ### Every BUSY instance completes -/

/-- An instance once it is completed, if it was BUSY (70_reset R163). -/
def Inst.completed (c : Inst) : Inst :=
  if c.phase = .busy then ⟨.done, c.req, c.req.map coreResponse, .empty⟩ else c

theorem Inst.completed_of_not_busy {c : Inst} (hp : c.phase ≠ .busy) : c.completed = c :=
  if_neg hp

theorem Inst.completed_answer {c : Inst} {r : Request} (hp : c.phase = .busy) (hr : c.req = some r) :
    (c.answer (coreResponse r)).completed = c.completed := by
  have hbusy : c.completed = ⟨.done, c.req, c.req.map coreResponse, .empty⟩ := if_pos hp
  rw [Inst.completed_of_not_busy Phase.noConfusion, hbusy, hr, Option.map_some, Inst.answer, hr]

/-- How many instances are BUSY. -/
def State.busyCount (s : State) : Nat := s.insts.countP fun c => c.phase == .busy

theorem State.busyCount_eq_zero {s : State} (h : s.busyCount = 0) : ∀ c ∈ s.insts, c.phase ≠ .busy := by
  simpa using List.countP_eq_zero.1 h

/-- Answering a BUSY instance leaves one fewer of them. -/
theorem State.busyCount_setSel_answer {s : State} {c : Inst} (hc : s.selected = some c) (hp : c.phase = .busy)
    (x : Response) : (s.setSel (c.answer x)).busyCount + 1 = s.busyCount := by
  obtain ⟨hlt, rfl⟩ := List.getElem?_eq_some_iff.1 hc
  have hpos : 0 < s.busyCount := List.countP_pos_iff.2 ⟨_, List.getElem_mem hlt, by simpa using hp⟩
  rw [State.busyCount] at hpos
  rw [State.busyCount, State.setSel_insts, List.countP_set hlt, State.busyCount]
  simp [hp]
  omega

/-- With an empty script and a BUSY instance a step completes one, and one fewer is BUSY (70_reset R162). -/
theorem step_completes {s : State} (hs : s.Inv) (hscript : s.script = []) (hbusy : s.busyCount ≠ 0) :
    ∃ t, step s = .next t ∧ t.script = [] ∧ t.seen = s.seen ∧ t.busyCount + 1 = s.busyCount ∧
      ∀ k : Nat, t.insts[k]?.map Inst.completed = s.insts[k]?.map Inst.completed := by
  obtain ⟨k, hk⟩ : ∃ k, s.firstBusy = some k := by
    rw [← Option.isSome_iff_exists, State.firstBusy, List.findIdx?_isSome, List.any_eq_true]
    exact List.countP_pos_iff.1 (Nat.pos_of_ne_zero hbusy)
  obtain ⟨hlt, hp, -⟩ := List.findIdx?_eq_some_iff_getElem.1 hk
  have hc : State.selected { s with sel := k } = some s.insts[k] := List.getElem?_eq_getElem hlt
  have hp' : s.insts[k].phase = .busy := by simpa using hp
  obtain ⟨r, hr, -⟩ := (Inst.inv_busy hp').1 (hs.2 _ (List.getElem_mem hlt))
  have hstep : step s = .next (State.setSel (s.insts[k].answer (coreResponse r)) { s with sel := k }) := by
    have he : s.nextEvent = some (.complete, { s with sel := k }) := by
      rw [nextEvent_empty hscript, hk, Option.map_some]
    rw [step_some he, (Action.Moves.complete hp' hr).perform_eq hc, State.moved_nil]
  exact ⟨_, hstep, hscript, rfl, State.busyCount_setSel_answer hc hp' _,
    map_insts_setSel hc (Inst.completed_answer hp' hr)⟩

/-- With an empty script as many steps as instances are BUSY complete them all. -/
theorem run_completes {s : State} (hs : s.Inv) (hscript : s.script = []) :
    ∃ t, Host.Core.run core s.busyCount s = .next t ∧ t.seen = s.seen ∧ t.script = [] ∧
      ∀ k : Nat, t.insts[k]? = s.insts[k]?.map Inst.completed := by
  generalize hn : s.busyCount = n
  induction n generalizing s with
  | zero =>
    refine ⟨s, rfl, rfl, hscript, fun k => ?_⟩
    cases hc : s.insts[k]? with
    | none => rfl
    | some c =>
      rw [Option.map_some, Inst.completed_of_not_busy (State.busyCount_eq_zero hn c (List.mem_of_getElem? hc))]
  | succ n ih =>
    obtain ⟨t, hstep, htscript, htseen, hcount, hcompleted⟩ := step_completes hs hscript (by omega)
    obtain ⟨u, hrun, huseen, huscript, hu⟩ :=
      ih (stepKeepsInstancesConsistent s t hs hstep) htscript (by omega)
    exact ⟨u, (run_succ hstep n).trans hrun, huseen.trans htseen, huscript, fun k => (hu k).trans (hcompleted k)⟩

/-- Settles O56: `run_completes`, and at most all instances are BUSY. -/
theorem everyBusyInstanceCompletes : Obligations.EveryBusyInstanceCompletes := by
  intro s hs hscript
  obtain ⟨t, hrun, hseen, htscript, hall⟩ := run_completes hs hscript
  refine ⟨s.busyCount, t, List.countP_le_length, hrun, hseen, htscript, fun k c hc => ?_⟩
  rw [hall k, hc, Option.map_some, Inst.completed]

end Sys2Proof.Machine
end
